-- ==== Sys2Proof/Word.lean ====
section
/-! DEFINITION. The two widths of the machine: bytes and addresses (00_scope.md R4). -/

namespace Sys2Proof

/-- `XLEN` and `BYTE` of R4: a register, a memory cell and an immediate are 8 bits wide. -/
abbrev Byte := BitVec 8

/-- `PCLEN` and `ALEN` of R4: the program counter and an address operand are 32 bits wide. -/
abbrev Addr := BitVec 32

end Sys2Proof
end

