-- ==== Sys2Proof/Config.lean ====
section
/-! DEFINITION. The parameters of 00_scope.md R4 that the spec fixes. `MEMLEN` and `IMAGE` stay arguments of
construction; every other open parameter stands at the default that 92_eei_decisions.md gives it
(DESIGN CHOICE, Logs 1 to 6). -/

namespace Sys2Proof.Config

/-- `2^32`: the largest `MEMLEN` (R20, R166; D6) and the first value `pc` cannot hold (R15, R95; D11). -/
def addressLimit : Nat := 4294967296

/-- `REG_RESET` (R4, R24, R171; D5): A, B and C after reset. DESIGN CHOICE, Log 3. -/
def resetReg : Byte := 0x00

/-- The value of `pc` after reset (R24, R171, R173). -/
def resetPc : Addr := 0x00000000

/-- What an unlisted cell of the memory's list holds. A cell below `MEMLEN` always has a byte of the image or of a
store; the list leaves out those equal to this one. DESIGN CHOICE, Log 11: representation only. -/
def unlistedByte : Byte := 0x00

/-- The longest instruction, in bytes (R50, format F5). -/
def longestInstruction : Nat := 5

/-- `JUMP_OFFSET` (R4): the width of the leading jump that the assembler places at address 0. -/
def jumpOffset : Nat := 5

end Sys2Proof.Config
end

