-- ==== Sys2Proof/Syntax.lean ====
section
/-! DEFINITION. The sixteen instructions, their opcode tags and the three formats (30_encoding.md R50, R56). -/

namespace Sys2Proof

/-- One constructor per row of the opcode table. `code` is the immediate of format F2 (R54), `addr` the absolute
address operand of format F5 (R55). The registers are implied by the opcode (R11). -/
inductive Instr where
  | nop
  | exit (code : Byte)
  | add
  | subtract
  | multiply
  | loadA (addr : Addr)
  | loadB (addr : Addr)
  | loadC (addr : Addr)
  | storeA (addr : Addr)
  | storeB (addr : Addr)
  | storeC (addr : Addr)
  | jump (addr : Addr)
  | jeq (addr : Addr)
  | jneq (addr : Addr)
  | jgt (addr : Addr)
  | jlt (addr : Addr)
deriving DecidableEq, Repr

/-- The sixteen opcode tags, in the order of R56. -/
inductive Opcode where
  | nop | exit | add | subtract | multiply
  | loadA | loadB | loadC | storeA | storeB | storeC
  | jump | jeq | jneq | jgt | jlt
deriving DecidableEq, Repr

/-- The three instruction formats of R50. -/
inductive Format where
  /-- One byte, the opcode alone (R51). -/
  | f1
  /-- Two bytes, opcode and immediate (R52). -/
  | f2
  /-- Five bytes, opcode and big-endian address (R53). -/
  | f5
deriving DecidableEq, Repr

/-- The general registers of R10. -/
inductive Reg where
  | A | B | C
deriving DecidableEq, Repr

end Sys2Proof
end

