-- ==== Sys2Proof/WellFormed.lean ====
section
/-! DEFINITION. What the spec requires of an instruction term, of an opcode byte and of a memory image before the
machine gives them a meaning. -/

namespace Sys2Proof

/-- Every instruction term is well-formed: all 256 immediates are legal (R54), all `2^32` address operands are legal
encodings (R55), and no instruction has a field with reserved values (R58). One arm per constructor, so that a new
instruction has to say what it requires. -/
def Instr.wellFormed : Instr → Bool
  | .nop => true
  | .exit _ => true
  | .add => true
  | .subtract => true
  | .multiply => true
  | .loadA _ => true
  | .loadB _ => true
  | .loadC _ => true
  | .storeA _ => true
  | .storeB _ => true
  | .storeC _ => true
  | .jump _ => true
  | .jeq _ => true
  | .jneq _ => true
  | .jgt _ => true
  | .jlt _ => true

/-- A byte that can stand as byte 0 of an instruction: all eight bits take part (R57), and exactly `0x00 .. 0x0F`
are opcodes (R56, R60). -/
def opcodeByteWellFormed (b : Byte) : Bool := decide (b.toNat < 16)

/-- A memory image that construction accepts: at most `2^32` bytes (R20, R166), of any values (R181). -/
def imageWellFormed (image : List Byte) : Bool := decide (image.length ≤ Config.addressLimit)

end Sys2Proof
end

