-- ==== Sys2Proof/Decode.lean ====
section
/-! DEFINITION. The instruction decoder and, after it, the encoder (30_encoding.md). The opcode map `Opcode.byte` is
the one place that says which byte is which opcode; decoder and encoder both read it. -/

namespace Sys2Proof

/-- The opcode map of R56, `OPBASE = 0` (the spec's decision D1). DESIGN CHOICE, Log 1. -/
def Opcode.byte : Opcode → Byte
  | .nop => 0x00
  | .exit => 0x01
  | .add => 0x02
  | .subtract => 0x03
  | .multiply => 0x04
  | .loadA => 0x05
  | .loadB => 0x06
  | .loadC => 0x07
  | .storeA => 0x08
  | .storeB => 0x09
  | .storeC => 0x0A
  | .jump => 0x0B
  | .jeq => 0x0C
  | .jneq => 0x0D
  | .jgt => 0x0E
  | .jlt => 0x0F

/-- The tags in the order of R56. -/
def Opcode.all : List Opcode :=
  [.nop, .exit, .add, .subtract, .multiply, .loadA, .loadB, .loadC,
   .storeA, .storeB, .storeC, .jump, .jeq, .jneq, .jgt, .jlt]

/-- The decoding direction of R60: a partial function on bytes, none for an illegal opcode (R57). -/
def opcodeOf (b : Byte) : Option Opcode :=
  Opcode.all.find? fun t => t.byte == b

/-- The format column of R56. -/
def Opcode.format : Opcode → Format
  | .nop | .add | .subtract | .multiply => .f1
  | .exit => .f2
  | .loadA | .loadB | .loadC | .storeA | .storeB | .storeC => .f5
  | .jump | .jeq | .jneq | .jgt | .jlt => .f5

/-- The length of a format in bytes (R50). -/
def Format.length : Format → Nat
  | .f1 => 1
  | .f2 => 2
  | .f5 => 5

/-- `LEN(opcode)` of R59. -/
def Opcode.length (t : Opcode) : Nat := t.format.length

/-- The address operand of R53 and R55: four bytes, most significant first. -/
def addressOfBytes (a3 a2 a1 a0 : Byte) : Addr := (((a3 ++ a2) ++ a1) ++ a0 : BitVec 32)

/-- The four operand bytes of an address in memory order (R53): `addr[31:24]` first. -/
def bytesOfAddress (addr : Addr) : List Byte :=
  [addr.extractLsb' 24 8, addr.extractLsb' 16 8, addr.extractLsb' 8 8, addr.extractLsb' 0 8]

/-- The opcode tag of an instruction. -/
def Instr.opcode : Instr → Opcode
  | .nop => .nop
  | .exit _ => .exit
  | .add => .add
  | .subtract => .subtract
  | .multiply => .multiply
  | .loadA _ => .loadA
  | .loadB _ => .loadB
  | .loadC _ => .loadC
  | .storeA _ => .storeA
  | .storeB _ => .storeB
  | .storeC _ => .storeC
  | .jump _ => .jump
  | .jeq _ => .jeq
  | .jneq _ => .jneq
  | .jgt _ => .jgt
  | .jlt _ => .jlt

/-- The instruction of a tag with its operand: a tag of format F2 takes `imm8`, one of format F5 takes `addr`. -/
def Opcode.withOperand (imm8 : Byte) (addr : Addr) : Opcode → Instr
  | .nop => .nop
  | .exit => .exit imm8
  | .add => .add
  | .subtract => .subtract
  | .multiply => .multiply
  | .loadA => .loadA addr
  | .loadB => .loadB addr
  | .loadC => .loadC addr
  | .storeA => .storeA addr
  | .storeB => .storeB addr
  | .storeC => .storeC addr
  | .jump => .jump addr
  | .jeq => .jeq addr
  | .jneq => .jneq addr
  | .jgt => .jgt addr
  | .jlt => .jlt addr

/-- The answers of the total decoder of R61. -/
inductive DecodeResult where
  /-- An instruction, and the bytes after it. -/
  | instr (i : Instr) (rest : List Byte)
  /-- The first byte is no opcode (R57). -/
  | illegal (byte : Byte)
  /-- Byte `k` of the instruction is missing; bytes `0 .. k-1` are there (R93). -/
  | truncated (k : Nat)
deriving DecidableEq, Repr

/-- The operand bytes of an instruction whose opcode byte has been read (R54, R55), in ascending address order. -/
def decodeOperand (t : Opcode) (rest : List Byte) : DecodeResult :=
  match t.format with
  | .f1 => .instr (t.withOperand 0 0) rest
  | .f2 =>
    match rest with
    | imm8 :: rest' => .instr (t.withOperand imm8 0) rest'
    | [] => .truncated 1
  | .f5 =>
    match rest with
    | a3 :: a2 :: a1 :: a0 :: rest' => .instr (t.withOperand 0 (addressOfBytes a3 a2 a1 a0)) rest'
    | _ => .truncated (1 + rest.length)

/-- The decoder of R59 and R61 on the bytes from `pc` on: opcode byte, then the illegal-opcode check, then the
operand bytes (the order of R91 to R93). Total on any bytes. -/
def decode : List Byte → DecodeResult
  | [] => .truncated 0
  | op :: rest =>
    match opcodeOf op with
    | none => .illegal op
    | some t => decodeOperand t rest

/-- The bytes of an instruction in memory order (R51 to R53). -/
def encode : Instr → List Byte
  | .nop => [Opcode.nop.byte]
  | .exit code => [Opcode.exit.byte, code]
  | .add => [Opcode.add.byte]
  | .subtract => [Opcode.subtract.byte]
  | .multiply => [Opcode.multiply.byte]
  | .loadA addr => Opcode.loadA.byte :: bytesOfAddress addr
  | .loadB addr => Opcode.loadB.byte :: bytesOfAddress addr
  | .loadC addr => Opcode.loadC.byte :: bytesOfAddress addr
  | .storeA addr => Opcode.storeA.byte :: bytesOfAddress addr
  | .storeB addr => Opcode.storeB.byte :: bytesOfAddress addr
  | .storeC addr => Opcode.storeC.byte :: bytesOfAddress addr
  | .jump addr => Opcode.jump.byte :: bytesOfAddress addr
  | .jeq addr => Opcode.jeq.byte :: bytesOfAddress addr
  | .jneq addr => Opcode.jneq.byte :: bytesOfAddress addr
  | .jgt addr => Opcode.jgt.byte :: bytesOfAddress addr
  | .jlt addr => Opcode.jlt.byte :: bytesOfAddress addr

/-- The encoded length of an instruction in bytes (R50). -/
def Instr.length (i : Instr) : Nat := i.opcode.length

/-- The bytes of a table word: byte 0 is the least significant byte of `w`; every bit above `nbits` is 0, up to the
longest instruction. -/
def bytesOfTableWord (nbits w : Nat) : List Byte :=
  (List.range Config.longestInstruction).map fun k => BitVec.ofNat 8 ((w % 2 ^ nbits) / 2 ^ (8 * k))

/-- The instruction the decoder reads from a table word; none where it refuses. -/
def decodeTableWord (nbits w : Nat) : Option Instr :=
  match decode (bytesOfTableWord nbits w) with
  | .instr i _ => some i
  | .illegal _ => none
  | .truncated _ => none

end Sys2Proof
end

