-- ==== Sys2Proof/Machine/State.lean ====
section
/-! DEFINITION. The architectural state (10_state.md), the run state, the reasons a move can stop, and the state after
reset. -/

namespace Sys2Proof.Machine

/-- The kinds and payloads of an ExecutionFault (R150 to R154; the spec's decision D7, Log 17). A kind is part of the
machine's state, not of a stopped model: taking a fault is a next state (R156, Log 10). -/
inductive ExecutionFault where
  /-- An instruction byte would be read at `a >= MEMLEN`, or the advance passes `2^32 - 1` (R151). -/
  | fetchOutOfBounds (a : Nat)
  /-- The byte at `pc` is no opcode (R152). -/
  | illegalOpcode (pc : Addr) (byte : Byte)
  /-- The address operand of a load or store is `>= MEMLEN` (R153). -/
  | dataOutOfBounds (addr : Addr)
deriving DecidableEq, Repr

/-- The run state of R17. -/
inductive RunState where
  | running
  | exited (code : Byte)
  | faulted (f : ExecutionFault)
deriving DecidableEq, Repr

/-- Memory as a list of cells in one canonical form (`Memory.wf`): addresses strictly rising, no entry equal to
`Config.unlistedByte` (Log 11). -/
abbrev Memory := List Host.Cell

/-- Every address of `m` is above `lo`, addresses rise strictly, and no entry holds what an unlisted address
reads as. -/
def Memory.wfAbove (lo : Option Nat) : Memory → Bool
  | [] => true
  | (a, v) :: rest =>
    (match lo with
      | none => true
      | some b => decide (b < a)) &&
    decide (v ≠ Config.unlistedByte) && Memory.wfAbove (some a) rest

/-- The canonical form of a memory. -/
def Memory.wf (m : Memory) : Bool := Memory.wfAbove none m

/-- The whole architectural state (the table at the head of 10_state.md). There is nothing else: no flags (R16), no
other control registers (R19), no other register files (R26), no hidden state (R23). -/
structure State where
  /-- Register A (R10). -/
  regA : Byte
  /-- Register B (R10). -/
  regB : Byte
  /-- Register C (R10). -/
  regC : Byte
  /-- The program counter (R13). -/
  pc : Addr
  /-- The run state (R17). -/
  run : RunState
  /-- `MEMLEN` (R4, R20), the port `mem_len` of R25: set at construction, constant during a run (Log 7). -/
  memLen : Nat
  /-- The cells `M[0 .. MEMLEN-1]` (R20). -/
  mem : Memory
deriving DecidableEq, Repr

/-- Reasons a move of the host stops in a fault. No step of the core answers with one: an ExecutionFault is a next
state of the machine (R156, Log 10). -/
inductive Fault where
  /-- Raised by construction from a buffer of more than `2^32` bytes (R166): no machine exists. Safe. -/
  | configError (length : Nat)
deriving DecidableEq, Repr

/-- Reasons the model gives a move no meaning. -/
inductive Refusal where
  /-- Raised by `exec` for an instruction without a meaning; no instruction of this model is one. Safe. -/
  | notModelled (mnemonic : String)
  /-- Raised by the host's read of an address at or beyond `MEMLEN`, which the spec does not define (R182, U22).
  Safe. -/
  | hostReadOutOfBounds (address : Nat)
  /-- Raised by a host access to the memory of a running core, which R184 excludes. Safe. -/
  | hostAccessWhileRunning
deriving DecidableEq, Repr

/-- The state that reset leaves over a memory of `memLen` cells `mem` (R24, R171, R172): registers, `pc` and `run` at
their reset values, memory untouched. -/
def State.afterReset (memLen : Nat) (mem : Memory) : State :=
  { regA := Config.resetReg, regB := Config.resetReg, regC := Config.resetReg,
    pc := Config.resetPc, run := .running, memLen := memLen, mem := mem }

/-- The machine right after reset with nothing loaded: the empty image, `MEMLEN = 0` (R24, R166). A program is loaded
from outside (`construct`). DESIGN CHOICE, Log 8. -/
def State.reset : State := State.afterReset 0 []

end Sys2Proof.Machine
end

