-- ==== Sys2Proof/Machine/Ops.lean ====
section
/-! DEFINITION. The named operations over registers, memory, `pc` and the run state: the primitives of 00_scope.md
section 5.3, the fetch, the advance, and taking an ExecutionFault. -/

namespace Sys2Proof.Machine

/-! ## Registers (R10 to R12: none hard-wired, none aliased) -/

/-- `x[r]`. -/
def State.getReg (s : State) : Reg → Byte
  | .A => s.regA
  | .B => s.regB
  | .C => s.regC

/-- `x[r] <- v`. -/
def State.setReg (s : State) (r : Reg) (v : Byte) : State :=
  match r with
  | .A => { s with regA := v }
  | .B => { s with regB := v }
  | .C => { s with regC := v }

/-! ## Memory cells (R20, R35) -/

/-- `M[a]`. -/
def Memory.read : Memory → Nat → Byte
  | [], _ => Config.unlistedByte
  | (b, v) :: rest, a => if b = a then v else Memory.read rest a

/-- The cell `(a, v)` before `m`, left out where it is what an unlisted address reads as. -/
def Memory.cons (a : Nat) (v : Byte) (m : Memory) : Memory :=
  if v = Config.unlistedByte then m else (a, v) :: m

/-- `M[a] <- v`, keeping the canonical form. -/
def Memory.write : Memory → Nat → Byte → Memory
  | [], a, v => Memory.cons a v []
  | (b, w) :: rest, a, v =>
    if a < b then Memory.cons a v ((b, w) :: rest)
    else if a = b then Memory.cons a v rest
    else (b, w) :: Memory.write rest a v

/-- The memory that holds `bytes` from address `base` on and nothing else (R172). -/
def Memory.ofBytes (base : Nat) : List Byte → Memory
  | [] => []
  | b :: rest => Memory.cons base b (Memory.ofBytes (base + 1) rest)

/-- `bytes` written from address `a` on, those below `limit` only. -/
def Memory.writeBytes (limit : Nat) (m : Memory) (a : Nat) : List Byte → Memory
  | [] => m
  | b :: rest => Memory.writeBytes limit (if a < limit then m.write a b else m) (a + 1) rest

/-- An address is valid exactly when it is below `MEMLEN` (R38). -/
def State.inBounds (s : State) (a : Nat) : Bool := decide (a < s.memLen)

/-- `MemRead(addr, 1)` (00_scope.md section 5.3, R123). -/
def State.memRead (s : State) (addr : Addr) : Except ExecutionFault Byte :=
  if s.inBounds addr.toNat then .ok (s.mem.read addr.toNat) else .error (.dataOutOfBounds addr)

/-- `MemWrite(addr, 1, v)` (00_scope.md section 5.3, R133). -/
def State.memWrite (s : State) (addr : Addr) (v : Byte) : Except ExecutionFault State :=
  if s.inBounds addr.toNat then .ok { s with mem := s.mem.write addr.toNat v }
  else .error (.dataOutOfBounds addr)

/-! ## The run state -/

/-- TAKING AN EXECUTIONFAULT (R156): the step ends, `run <- Faulted(kind, info)`, and everything else stays: `pc` keeps
the address of the faulting instruction's opcode byte (D10, Log 12), nothing is saved, no vector is fetched, no
handler runs. There is no return from it (R158): only reset leaves it (`hostReset`). -/
def State.takeFault (s : State) (f : ExecutionFault) : State := { s with run := .faulted f }

/-- `run <- Exited(code)`, `pc` kept (R101; D10, Log 12). -/
def State.exitWith (s : State) (code : Byte) : State := { s with run := .exited code }

/-! ## The program counter -/

/-- The sequential advance of R95: `pc + len` as a natural number; past `2^32 - 1` the step ends in a
FetchOutOfBounds fault with `pc` unchanged, after the instruction's effect (R15, D11, Log 13). -/
def State.advance (s : State) (len : Nat) : State :=
  if s.pc.toNat + len < Config.addressLimit then { s with pc := BitVec.ofNat 32 (s.pc.toNat + len) }
  else s.takeFault (.fetchOutOfBounds (s.pc.toNat + len))

/-- `pc <- addr`, the last action of a taken jump; the target is not compared with `MEMLEN` (R96, R145; D8,
Log 4). -/
def State.jumpTo (s : State) (addr : Addr) : State := { s with pc := addr }

/-! ## The fetch (R91 to R93) -/

/-- The bytes at `a, a+1, ...`, at most `n` of them, up to the first address that is out of bounds. -/
def State.bytesFrom (s : State) : Nat → Nat → List Byte
  | _, 0 => []
  | a, n + 1 => if s.inBounds a then s.mem.read a :: s.bytesFrom (a + 1) n else []

/-- The bytes the decoder can see at `pc`: as many as the longest instruction has, fewer at the end of memory. A read
has no side effect (R35), so a byte seen here and not used is not an access (`stepAccesses` lists those). -/
def State.fetchWindow (s : State) : List Byte := s.bytesFrom s.pc.toNat Config.longestInstruction

/-- Fetch and decode at `pc` (R61, R91 to R93): the instruction, or the fault that the first failing check raises, in
the order of R97: opcode byte in bounds, opcode legal, operand bytes in bounds with the lowest address first. -/
def State.fetchInstr (s : State) : Except ExecutionFault Instr :=
  match decode s.fetchWindow with
  | .instr i _ => .ok i
  | .illegal b => .error (.illegalOpcode s.pc b)
  | .truncated k => .error (.fetchOutOfBounds (s.pc.toNat + k))

end Sys2Proof.Machine
end

