-- ==== Sys2Proof/Machine/Operands.lean ====
section
/-! DEFINITION. The operand forms: the implied registers of the ALU (R11, R114), the one addressing mode (R123, R133),
the ALU's three results (R113), and the shared shapes of an ALU instruction, a load, a store and a jump. -/

namespace Sys2Proof.Machine

/-- The left operand of the ALU and of the comparisons is A (R11, R114, R146). -/
def State.leftOperand (s : State) : Byte := s.getReg .A

/-- The right operand of the ALU and of the comparisons is B (R11, R114, R146). -/
def State.rightOperand (s : State) : Byte := s.getReg .B

/-- The effective address of a load or store: the 32-bit operand itself; no register, offset, scaling or `pc` takes
part (R123, R133). -/
def effectiveAddress (addr : Addr) : Nat := addr.toNat

/-- An exact integer result narrowed to its low 8 bits: reduction modulo 256, non-negative remainder, recorded nowhere
(R113; the spec's decision D2). DESIGN CHOICE, Log 2. -/
def narrow (exact : Int) : Byte := BitVec.ofNat 8 (exact % 256).toNat

/-- The result of Add (R110, R113). -/
def aluAdd (a b : Byte) : Byte := narrow ((a.toNat : Int) + (b.toNat : Int))

/-- The result of Subtract: B is subtracted from A (R111, R114; the spec's decision D3). DESIGN CHOICE, Log 5. -/
def aluSubtract (a b : Byte) : Byte := narrow ((a.toNat : Int) - (b.toNat : Int))

/-- The result of Multiply, the low byte of the product (R112, R113). -/
def aluMultiply (a b : Byte) : Byte := narrow ((a.toNat : Int) * (b.toNat : Int))

/-- An ALU instruction: C and only C takes the result of A and B, then the advance (R114, R95). -/
def State.aluToC (s : State) (op : Byte → Byte → Byte) (len : Nat) : State :=
  (s.setReg .C (op s.leftOperand s.rightOperand)).advance len

/-- A load (R123): one byte at the effective address into `r`, then the advance; out of bounds, the fault with the
register and `pc` unchanged. -/
def State.loadInto (s : State) (r : Reg) (addr : Addr) (len : Nat) : State :=
  match s.memRead addr with
  | .ok v => (s.setReg r v).advance len
  | .error f => s.takeFault f

/-- A store (R133): the whole register to the one cell at the effective address, then the advance; out of bounds, the
fault with no cell written. -/
def State.storeFrom (s : State) (r : Reg) (addr : Addr) (len : Nat) : State :=
  match s.memWrite addr (s.getReg r) with
  | .ok t => t.advance len
  | .error f => s.takeFault f

/-- A conditional jump (R145, R146): taken, `pc <- addr` and no advance; not taken, the advance, and the target is
never looked at. -/
def State.jumpIf (s : State) (taken : Bool) (addr : Addr) (len : Nat) : State :=
  if taken then s.jumpTo addr else s.advance len

end Sys2Proof.Machine
end

