-- ==== Sys2Proof/Machine/Arithmetic.lean ====
section
/-! DEFINITION. Add, Subtract and Multiply (41_arithmetic.md). -/

namespace Sys2Proof.Machine

/-- Add: `C <- (A + B) mod 256` (R110). -/
def execAdd (s : State) : Host.Outcome State Fault Refusal :=
  .next (s.aluToC aluAdd Opcode.add.length)

/-- Subtract: `C <- (A - B) mod 256` (R111). -/
def execSubtract (s : State) : Host.Outcome State Fault Refusal :=
  .next (s.aluToC aluSubtract Opcode.subtract.length)

/-- Multiply: `C <- (A * B) mod 256` (R112). -/
def execMultiply (s : State) : Host.Outcome State Fault Refusal :=
  .next (s.aluToC aluMultiply Opcode.multiply.length)

end Sys2Proof.Machine
end

