-- ==== Sys2Proof/Machine/Flags.lean ====
section
/-! DEFINITION. The machine has no status flags (R16): no operation records carry, borrow, overflow, zero or sign.
What other machines read from flags, this one computes afresh from A and B in each conditional jump (R146). -/

namespace Sys2Proof.Machine

/-- Jeq's condition: `A = B` (R141, R146). -/
def conditionEq (a b : Byte) : Bool := decide (a.toNat = b.toNat)

/-- Jneq's condition: `A != B` (R142, R146). -/
def conditionNeq (a b : Byte) : Bool := decide (a.toNat ≠ b.toNat)

/-- Jgt's condition: `A > B`, both unsigned (R143, R146; the spec's decision D4). DESIGN CHOICE, Log 6. -/
def conditionGt (a b : Byte) : Bool := decide (b.toNat < a.toNat)

/-- Jlt's condition: `A < B`, both unsigned (R144, R146; the spec's decision D4). DESIGN CHOICE, Log 6. -/
def conditionLt (a b : Byte) : Bool := decide (a.toNat < b.toNat)

end Sys2Proof.Machine
end

