-- ==== Sys2Proof/Machine/Jump.lean ====
section
/-! DEFINITION. Jump, Jeq, Jneq, Jgt and Jlt (44_jump.md). -/

namespace Sys2Proof.Machine

/-- Jump: `pc <- addr` (R140). -/
def execJump (addr : Addr) (s : State) : Host.Outcome State Fault Refusal :=
  .next (s.jumpTo addr)

/-- Jeq: jump if `A = B` (R141). -/
def execJeq (addr : Addr) (s : State) : Host.Outcome State Fault Refusal :=
  .next (s.jumpIf (conditionEq s.leftOperand s.rightOperand) addr Opcode.jeq.length)

/-- Jneq: jump if `A != B` (R142). -/
def execJneq (addr : Addr) (s : State) : Host.Outcome State Fault Refusal :=
  .next (s.jumpIf (conditionNeq s.leftOperand s.rightOperand) addr Opcode.jneq.length)

/-- Jgt: jump if `A > B`, unsigned (R143). -/
def execJgt (addr : Addr) (s : State) : Host.Outcome State Fault Refusal :=
  .next (s.jumpIf (conditionGt s.leftOperand s.rightOperand) addr Opcode.jgt.length)

/-- Jlt: jump if `A < B`, unsigned (R144). -/
def execJlt (addr : Addr) (s : State) : Host.Outcome State Fault Refusal :=
  .next (s.jumpIf (conditionLt s.leftOperand s.rightOperand) addr Opcode.jlt.length)

end Sys2Proof.Machine
end

