-- ==== Sys2Proof/Machine/Load.lean ====
section
/-! DEFINITION. LoadA, LoadB and LoadC (42_load.md). -/

namespace Sys2Proof.Machine

/-- LoadA: `A <- M[addr]` (R120). -/
def execLoadA (addr : Addr) (s : State) : Host.Outcome State Fault Refusal :=
  .next (s.loadInto .A addr Opcode.loadA.length)

/-- LoadB: `B <- M[addr]` (R121). -/
def execLoadB (addr : Addr) (s : State) : Host.Outcome State Fault Refusal :=
  .next (s.loadInto .B addr Opcode.loadB.length)

/-- LoadC: `C <- M[addr]` (R122). -/
def execLoadC (addr : Addr) (s : State) : Host.Outcome State Fault Refusal :=
  .next (s.loadInto .C addr Opcode.loadC.length)

end Sys2Proof.Machine
end

