-- ==== Sys2Proof/Machine/NopExit.lean ====
section
/-! DEFINITION. Nop and Exit (40_nop_exit.md). -/

namespace Sys2Proof.Machine

/-- Nop: no effect, then the advance (R100). -/
def execNop (s : State) : Host.Outcome State Fault Refusal :=
  .next (s.advance Opcode.nop.length)

/-- Exit: stop with the code; `pc` is not advanced (R101). -/
def execExit (code : Byte) (s : State) : Host.Outcome State Fault Refusal :=
  .next (s.exitWith code)

end Sys2Proof.Machine
end

