-- ==== Sys2Proof/Machine/Store.lean ====
section
/-! DEFINITION. StoreA, StoreB and StoreC (43_store.md). -/

namespace Sys2Proof.Machine

/-- StoreA: `M[addr] <- A` (R130). -/
def execStoreA (addr : Addr) (s : State) : Host.Outcome State Fault Refusal :=
  .next (s.storeFrom .A addr Opcode.storeA.length)

/-- StoreB: `M[addr] <- B` (R131). -/
def execStoreB (addr : Addr) (s : State) : Host.Outcome State Fault Refusal :=
  .next (s.storeFrom .B addr Opcode.storeB.length)

/-- StoreC: `M[addr] <- C` (R132). -/
def execStoreC (addr : Addr) (s : State) : Host.Outcome State Fault Refusal :=
  .next (s.storeFrom .C addr Opcode.storeC.length)

end Sys2Proof.Machine
end

