-- ==== Sys2Proof/Machine/Dispatch.lean ====
section
/-! DEFINITION. One arm per instruction, each a direct call of its meaning (R94). -/

namespace Sys2Proof.Machine

def exec (i : Instr) (s : State) : Host.Outcome State Fault Refusal :=
  match i with
  | .nop => Sys2Proof.Machine.execNop s
  | .exit code => Sys2Proof.Machine.execExit code s
  | .add => Sys2Proof.Machine.execAdd s
  | .subtract => Sys2Proof.Machine.execSubtract s
  | .multiply => Sys2Proof.Machine.execMultiply s
  | .loadA addr => Sys2Proof.Machine.execLoadA addr s
  | .loadB addr => Sys2Proof.Machine.execLoadB addr s
  | .loadC addr => Sys2Proof.Machine.execLoadC addr s
  | .storeA addr => Sys2Proof.Machine.execStoreA addr s
  | .storeB addr => Sys2Proof.Machine.execStoreB addr s
  | .storeC addr => Sys2Proof.Machine.execStoreC addr s
  | .jump addr => Sys2Proof.Machine.execJump addr s
  | .jeq addr => Sys2Proof.Machine.execJeq addr s
  | .jneq addr => Sys2Proof.Machine.execJneq addr s
  | .jgt addr => Sys2Proof.Machine.execJgt addr s
  | .jlt addr => Sys2Proof.Machine.execJlt addr s

end Sys2Proof.Machine
end

