-- ==== Sys2Proof/Machine/Step.lean ====
section
/-! DEFINITION. One step of the core (38_execution_cycle.md R90, R99), and the state in which the next step fetches a
given word. -/

namespace Sys2Proof.Machine

/-- One step (R90). Running: fetch and decode at `pc`, then the instruction's meaning, or the fault that the fetch
raises. Exited or Faulted: no step is taken and no state changes (R99, R18), so the state stays as it is (DESIGN
CHOICE, Log 9). -/
def step (s : State) : Host.Outcome State Fault Refusal :=
  match s.run with
  | .running =>
    match s.fetchInstr with
    | .ok i => exec i s
    | .error f => .next (s.takeFault f)
  | .exited _ => .next s
  | .faulted _ => .next s

/-- `s` with the bytes of a table word stored at `pc`, where the next step fetches: the core is running, and memory
reaches at least to the end of the longest instruction at `pc` (never past `2^32`). This stands for the host loading
a program (R181, Log 8). -/
def State.withFetchWord (s : State) (nbits w : Nat) : State :=
  { s with
    run := .running
    memLen := max s.memLen (min (s.pc.toNat + Config.longestInstruction) Config.addressLimit)
    mem := s.mem.writeBytes Config.addressLimit s.pc.toNat (bytesOfTableWord nbits w) }

end Sys2Proof.Machine
end

