-- ==== Sys2Proof/Machine/Accesses.lean ====
section
/-! DEFINITION. The byte accesses of one step, in order (20_memory.md R33, R38, R43), and what they put on the memory side
of the interface (10_state.md R25). Cycles and handshakes are no part of it (R180, Log 15). -/

namespace Sys2Proof.Machine

/-- What an access is for (R33). -/
inductive AccessKind where
  | opcodeFetch | operandFetch | dataRead | dataWrite
deriving DecidableEq, Repr

/-- One access to one cell: the value read, or the value written. -/
structure Access where
  kind : AccessKind
  address : Nat
  value : Byte
deriving DecidableEq, Repr

/-- `n` fetch reads from `pc` on, in ascending address order (R43). -/
def State.fetchAccesses (s : State) (n : Nat) : List Access :=
  (List.range n).map fun k =>
    { kind := if k = 0 then .opcodeFetch else .operandFetch
      address := s.pc.toNat + k
      value := s.mem.read (s.pc.toNat + k) }

/-- The data read of a load, none out of bounds: an address that fails its check is never presented (R25, R43). -/
def State.readAccess (s : State) (addr : Addr) : List Access :=
  if s.inBounds (effectiveAddress addr) then
    [{ kind := .dataRead, address := effectiveAddress addr, value := s.mem.read (effectiveAddress addr) }]
  else []

/-- The data write of a store, none out of bounds. -/
def State.writeAccess (s : State) (r : Reg) (addr : Addr) : List Access :=
  if s.inBounds (effectiveAddress addr) then
    [{ kind := .dataWrite, address := effectiveAddress addr, value := s.getReg r }]
  else []

/-- The data access column of R33. -/
def State.dataAccesses (s : State) : Instr → List Access
  | .nop => []
  | .exit _ => []
  | .add => []
  | .subtract => []
  | .multiply => []
  | .loadA addr => s.readAccess addr
  | .loadB addr => s.readAccess addr
  | .loadC addr => s.readAccess addr
  | .storeA addr => s.writeAccess .A addr
  | .storeB addr => s.writeAccess .B addr
  | .storeC addr => s.writeAccess .C addr
  | .jump _ => []
  | .jeq _ => []
  | .jneq _ => []
  | .jgt _ => []
  | .jlt _ => []

/-- All accesses of the next step in their order: the opcode byte, the operand bytes ascending, then the data access
(R43). An illegal opcode fetches one byte; a truncated instruction fetches what there is of it. A stopped core makes
none. -/
def State.stepAccesses (s : State) : List Access :=
  match s.run with
  | .running =>
    match decode s.fetchWindow with
    | .instr i _ => s.fetchAccesses i.length ++ s.dataAccesses i
    | .illegal _ => s.fetchAccesses 1
    | .truncated k => s.fetchAccesses k
  | .exited _ | .faulted _ => []

/-- Port `mem_addr` (R25). -/
def Access.memAddrPort (x : Access) : BitVec 32 := BitVec.ofNat 32 x.address

/-- Port `mem_we`: 1 for the single write of a store, else 0 (R25). -/
def Access.memWePort (x : Access) : BitVec 1 :=
  match x.kind with
  | .dataWrite => 1
  | .opcodeFetch | .operandFetch | .dataRead => 0

/-- Port `mem_wdata` while `mem_we` is 1; the spec gives it no meaning otherwise, so the value is optional (R25). -/
def Access.memWdataPort (x : Access) : Option (BitVec 8) :=
  match x.kind with
  | .dataWrite => some x.value
  | .opcodeFetch | .operandFetch | .dataRead => none

/-- Port `mem_rdata`, `M[mem_addr]` (R25). -/
def State.memRdataPort (s : State) (memAddr : BitVec 32) : BitVec 8 := s.mem.read memAddr.toNat

/-- The memory after an access (R35: a read changes nothing, a write one cell). -/
def Memory.afterAccess (m : Memory) (x : Access) : Memory :=
  match x.kind with
  | .dataWrite => m.write x.address x.value
  | .opcodeFetch | .operandFetch | .dataRead => m

end Sys2Proof.Machine
end

