-- ==== Sys2Proof/Machine/Assembler.lean ====
section
/-! DEFINITION. The assembler that makes the image the core boots from (35_assembler.md R70 to R89): tokenizer, section
splitter, layout and linker. It is surrounding software (00_scope.md R3) and no part of the machine's step. A program
that relies on a point the spec leaves without an answer (91_not_in_source.md N20, N22, N23, N25 to N27 and N29) is
refused by the name `AsmError.unspecified` (U23, Log 16), and one that needs an address of `2^32` or more by the name
`AsmError.addressTooLarge` (R88, Log 20). -/

namespace Sys2Proof.Machine

/-- A source line, or a word of one. -/
abbrev Text := List Char

/-- Why assembly stops (R79, R80, R84, R87). There is no partial output. -/
inductive AsmError where
  /-- SyntaxError: the mnemonic is unrecognized (R79). -/
  | unknownMnemonic (line : Text)
  /-- SyntaxError: an operand is no 8-bit unsigned integer where one is required (R79). -/
  | badInteger (line : Text)
  /-- SyntaxError: a required operand is missing (R79). -/
  | missingOperand (line : Text)
  /-- A program with no section header is invalid (R80). -/
  | noSectionHeader
  /-- LinkError: an undeclared label, the instruction that names it, and the line it stands in (R84, R87). -/
  | unresolvedLabel (label : Text) (referencing : Opcode) (line : Text)
  /-- LinkError: a label declared twice (R85; D22). -/
  | duplicateLabel (label : Text)
  /-- The spec gives this line no meaning: entry N<gap> of 91_not_in_source.md. DESIGN CHOICE, Log 16. Safe. -/
  | unspecified (gap : Nat) (line : Text)
  /-- The image would have to hold an address that is no 32-bit number, which R88 calls not meaningful and gives no
  bytes. DESIGN CHOICE, Log 20. Safe. -/
  | addressTooLarge (address : Nat)
deriving DecidableEq, Repr

/-- A token, the meaning of one source line (R78). -/
inductive Token where
  /-- A blank line or a comment (R73). -/
  | ignore
  /-- A data declaration (R74). -/
  | data (name : Text) (value : Byte)
  /-- An instruction without operand. -/
  | plain (t : Opcode)
  /-- `Exit <value>`. -/
  | exitWith (code : Byte)
  /-- An instruction with a label name as its operand (R76), and its source line for the linker's report (R84). -/
  | labelled (t : Opcode) (label line : Text)
deriving DecidableEq, Repr

/-! ## Front end: characters, words, lines -/

/-- `c` is white space. -/
def isBlank (c : Char) : Bool := c == ' ' || c == '\t' || c == '\n' || c == '\r'

/-- A line without leading and trailing white space (R71). -/
def trim (l : Text) : Text := ((l.dropWhile isBlank).reverse.dropWhile isBlank).reverse

/-- The white-space-separated fields of a line; `word` is the field being read, last character first. -/
def fieldsFrom (word : Text) : Text → List Text
  | [] => if word = [] then [] else [word.reverse]
  | c :: rest =>
    if isBlank c then
      if word = [] then fieldsFrom [] rest else word.reverse :: fieldsFrom [] rest
    else fieldsFrom (c :: word) rest

/-- The fields of a line (R71). -/
def fields (l : Text) : List Text := fieldsFrom [] l

/-- The lower-case form of an ASCII letter. -/
def lowerChar (c : Char) : Char := if 'A' ≤ c ∧ c ≤ 'Z' then Char.ofNat (c.toNat + 32) else c

/-- The spelling of a mnemonic in lower case; mnemonics match without regard to letter case (R75; D20). -/
def mnemonicText : Opcode → Text
  | .nop => ['n', 'o', 'p']
  | .exit => ['e', 'x', 'i', 't']
  | .add => ['a', 'd', 'd']
  | .subtract => ['s', 'u', 'b', 't', 'r', 'a', 'c', 't']
  | .multiply => ['m', 'u', 'l', 't', 'i', 'p', 'l', 'y']
  | .loadA => ['l', 'o', 'a', 'd', 'a']
  | .loadB => ['l', 'o', 'a', 'd', 'b']
  | .loadC => ['l', 'o', 'a', 'd', 'c']
  | .storeA => ['s', 't', 'o', 'r', 'e', 'a']
  | .storeB => ['s', 't', 'o', 'r', 'e', 'b']
  | .storeC => ['s', 't', 'o', 'r', 'e', 'c']
  | .jump => ['j', 'u', 'm', 'p']
  | .jeq => ['j', 'e', 'q']
  | .jneq => ['j', 'n', 'e', 'q']
  | .jgt => ['j', 'g', 't']
  | .jlt => ['j', 'l', 't']

/-- The opcode a word names. -/
def mnemonicOf (w : Text) : Option Opcode :=
  Opcode.all.find? fun t => mnemonicText t == w.map lowerChar

/-- `c` is an ASCII letter. -/
def isLetter (c : Char) : Bool := decide ('a' ≤ lowerChar c ∧ lowerChar c ≤ 'z')

/-- `c` is a decimal digit. -/
def isDecimal (c : Char) : Bool := decide ('0' ≤ c ∧ c ≤ '9')

/-- The identifiers this spec's programs use: a letter, then letters, digits and `_` (R72). The source gives no
grammar (N22), so any other name is `unspecified`. -/
def isIdentifier : Text → Bool
  | [] => false
  | c :: rest => isLetter c && rest.all fun d => isLetter d || isDecimal d || d == '_'

/-- Decimal digits to an 8-bit unsigned value, none if it is not one (R74, R79; D23). -/
def parseByte (w : Text) : Option Byte :=
  let value := w.foldl (fun acc c => acc * 10 + (c.toNat - '0'.toNat)) 0
  if w ≠ [] ∧ w.all isDecimal ∧ value < 256 then some (BitVec.ofNat 8 value) else none

/-- A data declaration's operands (R74). -/
def tokenizeData (line : Text) : List Text → Except AsmError Token
  | [name, value] =>
    if isIdentifier name then
      match parseByte value with
      | some v => .ok (.data name v)
      | none => .error (.badInteger line)
    else .error (.unspecified 22 line)
  | [] | [_] => .error (.missingOperand line)
  | _ => .error (.unspecified 26 line)

/-- An instruction's operands, by its format (R75, R76, R79). -/
def tokenizeInstruction (line : Text) (t : Opcode) (operands : List Text) : Except AsmError Token :=
  match t.format, operands with
  | .f1, [] => .ok (.plain t)
  | .f2, [value] =>
    match parseByte value with
    | some v => .ok (.exitWith v)
    | none => .error (.badInteger line)
  | .f5, [label] => if isIdentifier label then .ok (.labelled t label line) else .error (.unspecified 25 line)
  | .f2, [] => .error (.missingOperand line)
  | .f5, [] => .error (.missingOperand line)
  | _, _ => .error (.unspecified 26 line)

/-- The token of `words`, the fields of a line that is no section header (R73 to R79); `line` is what an error reports. -/
def tokenize (line : Text) : List Text → Except AsmError Token
  | [] => .ok .ignore
  | w :: operands =>
    if w = ['u', '8'] then tokenizeData line operands
    else if w = ['U', '8'] then .error (.unspecified 20 line)
    else
      match mnemonicOf w with
      | some t => tokenizeInstruction line t operands
      | none => .error (.unknownMnemonic line)

/-- A line is a section header or one token (R71). -/
inductive LineKind where
  | header (name : Text)
  | token (t : Token)
deriving DecidableEq, Repr

/-- The first two characters are `//` (R73). -/
def isComment : Text → Bool
  | '/' :: '/' :: _ => true
  | _ => false

/-- The text before the first `//`, and the whole text if there is none. -/
def beforeComment : Text → Text
  | [] => []
  | c :: rest => if isComment (c :: rest) then [] else c :: beforeComment rest

/-- A trimmed text ends as a section header ends (R72). -/
def endsInColon (text : Text) : Bool := text.getLast? == some ':'

/-- The kind of a trimmed text that is not ignored (R71, R72, R74, R75); `line` is what an error reports. A text that
ends in a colon and whose name is not one of R72's is refused (N22). -/
def classifyText (line text : Text) : Except AsmError LineKind :=
  if endsInColon text then
    if isIdentifier text.dropLast then .ok (.header text.dropLast) else .error (.unspecified 22 line)
  else (tokenize line (fields text)).map .token

/-- A line with `//` after its beginning, of which the spec does not say whether a comment begins there (R73, N23):
`asText` is what the line is if none does, `asComment` what it is if one does. Where both are the same error, that is the
answer; any other line is refused, because its meaning would rest on the open point. DESIGN CHOICE, Log 16. -/
def withTrailingComment (line : Text) (asText asComment : Except AsmError LineKind) : Except AsmError LineKind :=
  match asText, asComment with
  | .error e, .error e' => if e = e' then .error e else .error (.unspecified 23 line)
  | .ok _, _ => .error (.unspecified 23 line)
  | .error _, .ok _ => .error (.unspecified 23 line)

/-- A line that yields `Ignore`: empty after trimming, or a comment (R73). -/
def isIgnored (raw : Text) : Bool := (trim raw).isEmpty || isComment (trim raw)

/-- The kind of a line (R71 to R75): ignored lines first, then headers, declarations and instructions. -/
def classifyLine (raw : Text) : Except AsmError LineKind :=
  let line := trim raw
  if isIgnored raw then .ok (.token .ignore)
  else if beforeComment line = line then classifyText line line
  else withTrailingComment line (classifyText line line) (classifyText line (trim (beforeComment line)))

/-- A line that is a section header (R72), or would be one under some answer to what the spec leaves open about names
and trailing comments (N22, N23). -/
def mayBeHeader (raw : Text) : Bool :=
  !isIgnored raw && (endsInColon (trim raw) || endsInColon (trim (beforeComment (trim raw))))

/-- A named run of tokens (R80). -/
structure Section where
  name : Text
  tokens : List Token
deriving DecidableEq, Repr

/-- The sections from here on, `current` being the one read; the first error in line order is the answer (R87). -/
def sectionsFrom (current : Section) : List Text → Except AsmError (List Section)
  | [] => .ok [current]
  | raw :: rest =>
    match classifyLine raw with
    | .error e => .error e
    | .ok (.header name) => (sectionsFrom { name := name, tokens := [] } rest).map (current :: ·)
    | .ok (.token t) => sectionsFrom { current with tokens := current.tokens ++ [t] } rest

/-- The sections of the lines up to and from the first header. Any line before it that is not ignored, well formed or
not, belongs to no section, and the spec does not say what happens to it (N27). DESIGN CHOICE, Log 16: it is refused. -/
def sectionsOf : List Text → Except AsmError (List Section)
  | [] => .ok []
  | raw :: rest =>
    if isIgnored raw then sectionsOf rest
    else if mayBeHeader raw then
      match classifyLine raw with
      | .error e => .error e
      | .ok (.header name) => sectionsFrom { name := name, tokens := [] } rest
      | .ok (.token _) => .error (.unspecified 27 (trim raw))
    else .error (.unspecified 27 (trim raw))

/-- The section splitter (R80). A program with no section header is invalid, whatever its lines are: this comes before
any report about a line. -/
def splitSections (lines : List Text) : Except AsmError (List Section) :=
  if lines.any mayBeHeader then sectionsOf lines else .error .noSectionHeader

/-! ## Back end: layout and linking -/

/-- The first section, by position, holds the data (R80; D21); the others hold code. -/
structure Program where
  data : List (Text × Byte)
  code : List Section
deriving DecidableEq, Repr

/-- The declarations of the data section; an instruction in it has no meaning in the spec (N29). -/
def dataOf : List Token → Except AsmError (List (Text × Byte))
  | [] => .ok []
  | .ignore :: rest => dataOf rest
  | .data name value :: rest =>
    match dataOf rest with
    | .ok ds => .ok ((name, value) :: ds)
    | .error e => .error e
  | .plain _ :: _ => .error (.unspecified 29 [])
  | .exitWith _ :: _ => .error (.unspecified 29 [])
  | .labelled _ _ _ :: _ => .error (.unspecified 29 [])

/-- A data declaration in a code section has no meaning in the spec (N29). -/
def hasDeclaration (tokens : List Token) : Bool :=
  tokens.any fun t =>
    match t with
    | .data _ _ => true
    | .ignore | .plain _ | .exitWith _ | .labelled _ _ _ => false

/-- The program of a list of sections (R80). -/
def programOf : List Section → Except AsmError Program
  | [] => .error .noSectionHeader
  | first :: code =>
    if code.any fun c => hasDeclaration c.tokens then .error (.unspecified 29 [])
    else
      match dataOf first.tokens with
      | .ok ds => .ok { data := ds, code := code }
      | .error e => .error e

/-- The bytes a token takes (R81). -/
def tokenSize : Token → Nat
  | .ignore => 0
  | .data _ _ => 1
  | .plain t => t.length
  | .exitWith _ => Opcode.exit.length
  | .labelled t _ _ => t.length

/-- The bytes a section takes (R81). -/
def sectionSize (tokens : List Token) : Nat := (tokens.map tokenSize).sum

/-- Data labels from address `at_` on, one byte each, in declaration order (R83). -/
def dataLabels (at_ : Nat) : List (Text × Byte) → List (Text × Nat)
  | [] => []
  | (name, _) :: rest => (name, at_) :: dataLabels (at_ + 1) rest

/-- Code labels from address `at_` on, sizes accumulating (R82; D27). -/
def codeLabels (at_ : Nat) : List Section → List (Text × Nat)
  | [] => []
  | c :: rest => (c.name, at_) :: codeLabels (at_ + sectionSize c.tokens) rest

/-- Where the code begins: `JUMP_OFFSET` plus the size of the data (R82). -/
def Program.codeStart (p : Program) : Nat := Config.jumpOffset + p.data.length

/-- The one flat map from names to addresses (R85). -/
def Program.labels (p : Program) : List (Text × Nat) :=
  dataLabels Config.jumpOffset p.data ++ codeLabels p.codeStart p.code

/-- The address a name is bound to. -/
def lookupLabel (labels : List (Text × Nat)) (name : Text) : Option Nat :=
  (labels.find? fun l => l.1 == name).map Prod.snd

/-- A name bound twice, if there is one. -/
def duplicateIn : List (Text × Nat) → Option Text
  | [] => none
  | (name, _) :: rest => if rest.any fun l => l.1 == name then some name else duplicateIn rest

/-- The bytes of an instruction whose operand is address `a` (R84). An address is 32 bits wide (R85); of one that is not,
R88 says only that it is not meaningful, and the model refuses it. DESIGN CHOICE, Log 20: it is not reduced to 32 bits,
which would encode another place of the image. -/
def emitAddressed (t : Opcode) (a : Nat) : Except AsmError (List Byte) :=
  if a < Config.addressLimit then .ok (encode (t.withOperand 0 (BitVec.ofNat 32 a))) else .error (.addressTooLarge a)

/-- The bytes of a token (R84). A declaration in a code section, which has no meaning in the spec (N29), and a plain token
whose opcode takes an operand stand in no program that `programOf` makes of tokenized lines; what they give here is the
model's choice. DESIGN CHOICE, Log 16. -/
def emitToken (labels : List (Text × Nat)) : Token → Except AsmError (List Byte)
  | .ignore => .ok []
  | .data _ value => .ok [value]
  | .plain t => .ok (encode (t.withOperand 0 0))
  | .exitWith code => .ok (encode (.exit code))
  | .labelled t label line =>
    match lookupLabel labels label with
    | some a => emitAddressed t a
    | none => .error (.unresolvedLabel label t line)

/-- The bytes of a run of tokens, in order. -/
def emitTokens (labels : List (Text × Nat)) : List Token → Except AsmError (List Byte)
  | [] => .ok []
  | t :: rest =>
    match emitToken labels t, emitTokens labels rest with
    | .ok bytes, .ok more => .ok (bytes ++ more)
    | .error e, _ => .error e
    | .ok _, .error e => .error e

/-- The tokens of all code sections in source order (R84). -/
def Program.codeTokens (p : Program) : List Token := p.code.flatMap fun c => c.tokens

/-- Steps 4 and 5 of the linker (R84, R37): the leading jump, the data bytes, the code bytes. No limit is set on the
length of the image (R88); only an address it would have to hold is checked (Log 20). -/
def link (p : Program) : Except AsmError (List Byte) :=
  match duplicateIn p.labels with
  | some name => .error (.duplicateLabel name)
  | none =>
    match emitTokens p.labels p.codeTokens, emitAddressed .jump p.codeStart with
    | .ok code, .ok leadingJump => .ok (leadingJump ++ p.data.map Prod.snd ++ code)
    | .error e, _ => .error e
    | .ok _, .error e => .error e

/-- Source lines to the memory image (R70). -/
def assemble (lines : List Text) : Except AsmError (List Byte) :=
  match splitSections lines with
  | .error e => .error e
  | .ok sections =>
    match programOf sections with
    | .error e => .error e
    | .ok p => link p

end Sys2Proof.Machine
end

