-- ==== Sys2Proof/Machine/Pseudocode.lean ====
section
/-! DEFINITION. The spec's pseudocode, read a second time and line by line: the primitives of 00_scope.md section 5.3,
`step()` of 38_execution_cycle.md R90, and the instruction rules by opcode number, using the numbering's regularities
(30_encoding.md section 5). Nothing of the machine uses it; a statement compares the machine's step with it. -/

namespace Sys2Proof.Machine

/-- `FetchRead(addr, 1)`. -/
def pseudoFetchByte (s : State) (addr : Nat) : Except ExecutionFault Byte :=
  if s.memLen ≤ addr then .error (.fetchOutOfBounds addr) else .ok (s.mem.read addr)

/-- `FetchRead(addr, 4)`: ascending addresses, each checked just before it is read; big-endian. -/
def pseudoFetchWord (s : State) (addr : Nat) : Except ExecutionFault Addr := do
  let b3 ← pseudoFetchByte s addr
  let b2 ← pseudoFetchByte s (addr + 1)
  let b1 ← pseudoFetchByte s (addr + 2)
  let b0 ← pseudoFetchByte s (addr + 3)
  return BitVec.ofNat 32 (b3.toNat * 2 ^ 24 + b2.toNat * 2 ^ 16 + b1.toNat * 2 ^ 8 + b0.toNat)

/-- `LEN(op)` (R59) by the numbers of R56. -/
def pseudoLen (op : Nat) : Nat := if op = 1 then 2 else if op ≤ 4 then 1 else 5

/-- Register index 0, 1, 2 (R10). -/
def pseudoReg (index : Nat) : Reg := if index = 0 then .A else if index = 1 then .B else .C

/-- The fetch part of `step()`: opcode, legality, operand (R91 to R93). The operand a format lacks is 0. -/
def pseudoFetch (s : State) (p : Nat) : Except ExecutionFault (Nat × Byte × Addr) := do
  let op ← pseudoFetchByte s p
  if op.toNat > 0x0F then
    throw (.illegalOpcode (BitVec.ofNat 32 p) op)
  else if pseudoLen op.toNat = 1 then
    return (op.toNat, 0, 0)
  else if pseudoLen op.toNat = 2 then
    let imm8 ← pseudoFetchByte s (p + 1)
    return (op.toNat, imm8, 0)
  else
    let addr ← pseudoFetchWord s (p + 1)
    return (op.toNat, 0, addr)

/-- The conditions of R146 in the order of the opcodes 0x0C to 0x0F, on unsigned values. -/
def pseudoCondition (c a b : Nat) : Bool :=
  if c = 0 then a == b else if c = 1 then a != b else if c = 2 then decide (a > b) else decide (a < b)

/-- `execute(op, operand)` (R94): the state after the effect, and whether the instruction wrote `pc`. -/
def pseudoExecute (op : Nat) (imm8 : Byte) (addr : Addr) (s : State) : Except ExecutionFault (State × Bool) :=
  if op = 0 then .ok (s, false)
  else if op = 1 then .ok ({ s with run := .exited imm8 }, false)
  else if op = 2 then .ok ({ s with regC := BitVec.ofNat 8 ((s.regA.toNat + s.regB.toNat) % 256) }, false)
  else if op = 3 then .ok ({ s with regC := BitVec.ofNat 8 ((s.regA.toNat + 256 - s.regB.toNat) % 256) }, false)
  else if op = 4 then .ok ({ s with regC := BitVec.ofNat 8 ((s.regA.toNat * s.regB.toNat) % 256) }, false)
  else if op ≤ 7 then
    if s.memLen ≤ addr.toNat then .error (.dataOutOfBounds addr)
    else .ok (s.setReg (pseudoReg (op - 5)) (s.mem.read addr.toNat), false)
  else if op ≤ 10 then
    if s.memLen ≤ addr.toNat then .error (.dataOutOfBounds addr)
    else .ok ({ s with mem := s.mem.write addr.toNat (s.getReg (pseudoReg (op - 8))) }, false)
  else if op = 11 then .ok ({ s with pc := addr }, true)
  else if pseudoCondition (op - 12) s.regA.toNat s.regB.toNat then .ok ({ s with pc := addr }, true)
  else .ok (s, false)

/-- `advance(p, LEN(op))` (R95). -/
def pseudoAdvance (s : State) (p len : Nat) : State :=
  if p + len ≥ 2 ^ 32 then { s with run := .faulted (.fetchOutOfBounds (p + len)) }
  else { s with pc := BitVec.ofNat 32 (p + len) }

/-- `step()` of R90; its precondition is `run = Running`. -/
def pseudoStep (s : State) : State :=
  match pseudoFetch s s.pc.toNat with
  | .error f => { s with run := .faulted f }
  | .ok (op, imm8, addr) =>
    match pseudoExecute op imm8 addr s with
    | .error f => { s with run := .faulted f }
    | .ok (t, wrotePc) =>
      if t.run = .running ∧ wrotePc = false then pseudoAdvance t s.pc.toNat (pseudoLen op) else t

end Sys2Proof.Machine
end

