-- ==== Sys2Proof/Machine/HostPort.lean ====
section
/-! DEFINITION. What the host does to the machine and sees of it: construction, reset, the output ports and the read of
one memory cell (10_state.md R25, 60_exceptions.md R154 and R166, 70_reset_and_hazards.md R170 to R184). No move of the
host happens while the core runs, but for reset (R184, Log 14). -/

namespace Sys2Proof.Machine

/-- Construction from a byte buffer (R166, R170, R171, R181): ConfigError above `2^32` bytes, else the state after reset
over exactly the buffer's bytes. An empty buffer is accepted. -/
def construct (image : List Byte) : Host.Outcome State Fault Refusal :=
  if imageWellFormed image then .next (State.afterReset image.length (Memory.ofBytes 0 image))
  else .fault (.configError image.length)

/-- `rst` asserted and released (R170 to R172): registers, `pc` and run state to their reset values; memory, with the
stores of the run before, and `MEMLEN` kept. It is the one way out of Exited and Faulted (R158). -/
def hostReset (s : State) : State := State.afterReset s.memLen s.mem

/-- The host's read of one cell after the run (R182; D19): defined for a stopped core and an address below `MEMLEN`
only (U22, N19). -/
def hostReadCell (s : State) (address : Nat) : Except Refusal Byte :=
  match s.run with
  | .running => .error .hostAccessWhileRunning
  | .exited _ | .faulted _ =>
    if s.inBounds address then .ok (s.mem.read address) else .error (.hostReadOutOfBounds address)

/-- Port `fault_kind` of a fault (R154). -/
def faultKindCode : ExecutionFault → BitVec 2
  | .fetchOutOfBounds _ => 1
  | .illegalOpcode _ _ => 2
  | .dataOutOfBounds _ => 3

/-- Port `fault_info` of a fault (R154): 33 bits. -/
def faultInfoCode : ExecutionFault → BitVec 33
  | .fetchOutOfBounds a => BitVec.ofNat 33 a
  | .illegalOpcode pc _ => pc.setWidth 33
  | .dataOutOfBounds addr => addr.setWidth 33

/-- Output port `status`: 0 Running, 1 Exited, 2 Faulted (R25). -/
def State.statusPort (s : State) : BitVec 2 :=
  match s.run with
  | .running => 0
  | .exited _ => 1
  | .faulted _ => 2

/-- Output port `exit_code`: the code when Exited, else 0 (R25). -/
def State.exitCodePort (s : State) : BitVec 8 :=
  match s.run with
  | .exited code => code
  | .running | .faulted _ => 0

/-- Output port `fault_kind`: the kind when Faulted, else 0 (R25, R154). -/
def State.faultKindPort (s : State) : BitVec 2 :=
  match s.run with
  | .faulted f => faultKindCode f
  | .running | .exited _ => 0

/-- Output port `fault_info`: the payload when Faulted, else 0 (R25, R154). -/
def State.faultInfoPort (s : State) : BitVec 33 :=
  match s.run with
  | .faulted f => faultInfoCode f
  | .running | .exited _ => 0

/-- Port `mem_len`: `MEMLEN`, 33 bits (R25). -/
def State.memLenPort (s : State) : BitVec 33 := BitVec.ofNat 33 s.memLen

/-- Output port `dbg_pc` (R25). -/
def State.dbgPcPort (s : State) : BitVec 32 := s.pc

/-- Output ports `dbg_a`, `dbg_b` and `dbg_c` (R25). -/
def State.dbgRegPort (s : State) (r : Reg) : BitVec 8 := s.getReg r

end Sys2Proof.Machine
end

