-- ==== Sys2Proof/Machine/Run.lean ====
section
/-! DEFINITION. Runs (38_execution_cycle.md R98, 70_reset_and_hazards.md R179 and R183): a number of steps, and a runner
with fuel whose exhaustion is an outcome of the runner, never a state of the machine (the spec's decision D14; DESIGN
CHOICE, Log 21). -/

namespace Sys2Proof.Machine

/-- `n` steps of the machine, by the host's own definition of a run. -/
def runSteps (n : Nat) (s : State) : Host.Outcome State Fault Refusal :=
  Host.Core.run Sys2Proof.core n s

/-- How a runner with fuel ends (R179): the machine exited, or faulted, or fuel ran out. The state is the whole
architectural state at the end (R183). -/
inductive RunEnd where
  | exited (code : Byte) (s : State)
  | faulted (f : ExecutionFault) (s : State)
  | fuelExhausted (s : State)
  /-- A step answered with a fault of the model; no step of this model does. -/
  | modelFault (r : Fault)
  /-- A step was refused; no step of this model is. -/
  | modelRefused (r : Refusal)
deriving DecidableEq, Repr

/-- `while run = Running: step()` (R98), with at most `fuel` steps. -/
def runFuel : Nat → State → RunEnd
  | 0, s =>
    match s.run with
    | .running => .fuelExhausted s
    | .exited code => .exited code s
    | .faulted f => .faulted f s
  | fuel + 1, s =>
    match s.run with
    | .running =>
      match step s with
      | .next t => runFuel fuel t
      | .fault r => .modelFault r
      | .refused r => .modelRefused r
    | .exited code => .exited code s
    | .faulted f => .faulted f s

/-- `run_machine()` of R98 on an image, with fuel. -/
def runImage (fuel : Nat) (image : List Byte) : RunEnd :=
  match construct image with
  | .next s => runFuel fuel s
  | .fault r => .modelFault r
  | .refused r => .modelRefused r

end Sys2Proof.Machine
end

