-- ==== Sys2Proof/Safety.lean ====
section
/-! DEFINITION. The terms the statements use: bytes held in memory, the invariant of the machine, safe runs, and the
instructions named by the register they load or store. -/

namespace Sys2Proof

/-- The load of register `r` (R10: opcode of LoadA plus the register's index). -/
def Instr.loadOf (addr : Addr) : Reg → Instr
  | .A => .loadA addr
  | .B => .loadB addr
  | .C => .loadC addr

/-- The store of register `r`. -/
def Instr.storeOf (addr : Addr) : Reg → Instr
  | .A => .storeA addr
  | .B => .storeB addr
  | .C => .storeC addr

end Sys2Proof

namespace Sys2Proof.Machine

/-- The bytes `bs` stand in memory from address `a` on, all of them in bounds. -/
def State.holdsAt (s : State) : Nat → List Byte → Bool
  | _, [] => true
  | a, b :: rest => s.inBounds a && s.mem.read a == b && s.holdsAt (a + 1) rest

/-- Every listed cell is at a valid address (R20, R38). -/
def Memory.below (limit : Nat) (m : Memory) : Bool := m.all fun c => decide (c.1 < limit)

/-- A load or a store with operand `addr` stands at `pc`. -/
def State.dataAccessAtPc (s : State) (addr : Addr) : Bool :=
  [Reg.A, Reg.B, Reg.C].any fun r =>
    s.holdsAt s.pc.toNat (encode (Instr.loadOf addr r)) || s.holdsAt s.pc.toNat (encode (Instr.storeOf addr r))

/-- What the machine still shows of why it stopped (R101, R151 to R154, R156, R183): the Exit instruction at `pc`; or the
failed check, at `pc`, that the fault's kind and payload name. A running machine has nothing to show. A fetch fault below
`2^32` names the first address from `pc` on that is out of bounds; at or above, it may be the advance's. -/
def State.stopExplained (s : State) : Bool :=
  match s.run with
  | .running => true
  | .exited code => s.holdsAt s.pc.toNat (encode (.exit code))
  | .faulted (.fetchOutOfBounds a) =>
    (decide (a = max s.pc.toNat s.memLen) || decide (Config.addressLimit ≤ a)) &&
      decide (s.pc.toNat ≤ a) && decide (a ≤ s.pc.toNat + Config.longestInstruction)
  | .faulted (.illegalOpcode p b) =>
    decide (p = s.pc) && s.holdsAt s.pc.toNat [b] && !opcodeByteWellFormed b
  | .faulted (.dataOutOfBounds addr) => decide (s.memLen ≤ addr.toNat) && s.dataAccessAtPc addr

/-- The invariant of the machine: memory in canonical form and inside `MEMLEN`, `MEMLEN` at most `2^32`, and a stop that
the state explains. -/
abbrev State.Inv (s : State) : Prop :=
  s.mem.wf = true ∧ s.mem.below s.memLen = true ∧ s.memLen ≤ Config.addressLimit ∧ s.stopExplained = true

/-- The machine has faulted. -/
def State.isFaulted (s : State) : Bool :=
  match s.run with
  | .faulted _ => true
  | .running | .exited _ => false

/-- A safe state: no number of steps leads to a fault. -/
def State.safe (s : State) : Prop :=
  ∀ n t, runSteps n s = .next t → t.isFaulted = false

end Sys2Proof.Machine

namespace Sys2Proof

/-- The "read by" column of R11. -/
def Instr.reads (r : Reg) : Instr → Bool
  | .nop | .exit _ | .jump _ => false
  | .add | .subtract | .multiply => r == .A || r == .B
  | .loadA _ | .loadB _ | .loadC _ => false
  | .storeA _ => r == .A
  | .storeB _ => r == .B
  | .storeC _ => r == .C
  | .jeq _ | .jneq _ | .jgt _ | .jlt _ => r == .A || r == .B

/-- The "written by" column of R11. -/
def Instr.writes (r : Reg) : Instr → Bool
  | .nop | .exit _ | .jump _ => false
  | .add | .subtract | .multiply => r == .C
  | .loadA _ => r == .A
  | .loadB _ => r == .B
  | .loadC _ => r == .C
  | .storeA _ | .storeB _ | .storeC _ => false
  | .jeq _ | .jneq _ | .jgt _ | .jlt _ => false

end Sys2Proof

namespace Sys2Proof.Machine

/-- The two states agree in everything but register `r`. -/
def State.agreesBut (r : Reg) (s t : State) : Prop :=
  (∀ q, q ≠ r → s.getReg q = t.getReg q) ∧ s.pc = t.pc ∧ s.run = t.run ∧ s.memLen = t.memLen ∧ s.mem = t.mem

end Sys2Proof.Machine
end

