-- ==== Sys2Proof/Certificates/Slice0/Obligations.lean ====
section
/-! DEFINITION. The statements for the provers. Each docstring names the rules of `spec/` it formalises. Numbers are
written out here, not taken from `Config`. A decision `D<n>` named in a docstring is the spec's own choice
(92_eei_decisions.md); "Log <n>" is the model's entry about it in `notes/assumptions/`. -/

open Sys2Proof Sys2Proof.Machine

/-! ## Encoding -/

/-- Decoding the bytes of any instruction, whatever follows them, gives that instruction back (R50 to R56, R60). The
opcode numbers are the spec's decision D1 (Log 1). -/
def Obligations.DecodeInvertsEncode : Prop :=
  ∀ (i : Instr) (rest : List Byte), decode (encode i ++ rest) = .instr i rest

/-- Whatever bytes decode to an instruction are the bytes of that instruction, so no two byte sequences denote the same
instruction and no operand bit is ignored (R58). -/
def Obligations.EncodeInvertsDecode : Prop :=
  ∀ (bytes : List Byte) (i : Instr) (rest : List Byte), decode bytes = .instr i rest → bytes = encode i ++ rest

/-- The opcode map is a bijection between the bytes 0x00 to 0x0F and the sixteen tags, and every other byte is refused
with its value whatever follows (R60). That the range is 0x00 to 0x0F is the spec's decision D1, the model's `OPBASE = 0`
(R4; Log 1). -/
def Obligations.OpcodeMapIsBijection : Prop :=
  Opcode.all.length = 16 ∧ Opcode.all.Nodup ∧
  (∀ t : Opcode, t ∈ Opcode.all ∧ opcodeOf t.byte = some t) ∧
  (∀ (b : Byte) (t : Opcode), opcodeOf b = some t → t.byte = b) ∧
  (∀ b : Byte, (opcodeOf b).isSome = true ↔ b.toNat ≤ 0x0F) ∧
  (∀ (b : Byte) (rest : List Byte), 0x0F < b.toNat → decode (b :: rest) = .illegal b)

/-- The opcode byte alone tells the length: 1 for Nop, Add, Subtract and Multiply, 2 for Exit, 5 for the eleven others,
and that many bytes are taken; a byte that is no opcode has no length and nothing after it is looked at (R59). -/
def Obligations.OpcodeByteTellsLength : Prop :=
  (∀ t : Opcode, t.length = if t = .nop ∨ t = .add ∨ t = .subtract ∨ t = .multiply then 1
    else if t = .exit then 2 else 5) ∧
  (∀ (b : Byte) (rest : List Byte) (i : Instr) (rest' : List Byte), decode (b :: rest) = .instr i rest' →
    opcodeOf b = some i.opcode ∧ (b :: rest).length = i.opcode.length + rest'.length) ∧
  (∀ (b : Byte) (rest : List Byte), opcodeOf b = none → decode (b :: rest) = .illegal b)

/-- One instruction of each family, its bytes written out from the encodings of R51 to R53 and R56. The opcode bytes are
the spec's decision D1, the model's `OPBASE = 0` (R4; Log 1). -/
def Obligations.SampleBytesDecode : Prop :=
  decode [0x00] = .instr .nop [] ∧
  decode [0x01, 0xFF] = .instr (.exit 0xFF) [] ∧
  decode [0x03, 0x10] = .instr .subtract [0x10] ∧
  decode [0x05, 0x00, 0x00, 0x01, 0x00] = .instr (.loadA 256) [] ∧
  decode [0x09, 0x12, 0x34, 0x56, 0x78] = .instr (.storeB 0x12345678) [] ∧
  decode [0x0F, 0x80, 0x00, 0x00, 0x00] = .instr (.jlt 2147483648) [] ∧
  decode [0x10, 0x00] = .illegal 0x10 ∧
  decode [0x0B, 0x00, 0x00] = .truncated 3

/-- The address operand of an instruction in memory is big-endian: the byte after the opcode byte is the most
significant (R30). It holds for every format-F5 opcode. -/
def Obligations.AddressOperandIsBigEndian : Prop :=
  ∀ (s : State) (t : Opcode), t.format = .f5 → s.mem.read s.pc.toNat = t.byte → s.pc.toNat + 4 < s.memLen →
    ∃ addr : Addr, s.fetchInstr = .ok (t.withOperand 0 addr) ∧
      addr.toNat = (s.mem.read (s.pc.toNat + 1)).toNat * 2 ^ 24 + (s.mem.read (s.pc.toNat + 2)).toNat * 2 ^ 16 +
        (s.mem.read (s.pc.toNat + 3)).toNat * 2 ^ 8 + (s.mem.read (s.pc.toNat + 4)).toNat

/-- The immediate of Exit is the byte after the opcode byte, unextended and unscaled; all 256 values are legal, and each
becomes the exit code unchanged (R54). -/
def Obligations.ExitImmediateIsNextByte : Prop :=
  ∀ s : State, s.run = .running → s.mem.read s.pc.toNat = Opcode.exit.byte → s.pc.toNat + 1 < s.memLen →
    s.fetchInstr = .ok (.exit (s.mem.read (s.pc.toNat + 1))) ∧
    ∃ t, step s = .next t ∧ t.run = .exited (s.mem.read (s.pc.toNat + 1))

/-! ## The step and the fetch -/

/-- When the bytes at `pc` decode to an instruction, the step of a running core is that instruction's meaning at that
state, with nothing added around it: each meaning writes `pc` itself (R90, R94). -/
def Obligations.StepRunsDecodedInstruction : Prop :=
  ∀ (s : State) (i : Instr) (rest : List Byte), s.run = .running → decode s.fetchWindow = .instr i rest →
    step s = exec i s

/-- When the bytes of an instruction stand in memory at `pc`, all in bounds, the step of a running core is that
instruction's meaning, at any address and whatever follows (R61, R90 to R94). -/
def Obligations.StepRunsInstructionInMemory : Prop :=
  ∀ (s : State) (i : Instr), s.run = .running → s.holdsAt s.pc.toNat (encode i) = true → step s = exec i s

/-- A table word that decodes to an instruction, placed where the step fetches, is run by the next step, wherever the
five bytes of the longest instruction fit below `2^32`. This is a statement about the model's own `withFetchWord`
(Log 8). -/
def Obligations.StepRunsPlacedWord : Prop :=
  ∀ (s : State) (nbits w : Nat) (i : Instr), s.mem.wf = true → s.pc.toNat + 5 ≤ 4294967296 →
    decodeTableWord nbits w = some i → step (s.withFetchWord nbits w) = exec i (s.withFetchWord nbits w)

/-- The opcode fetch: at `pc >= MEMLEN` the step raises FetchOutOfBounds(pc) and nothing else happens; else the opcode
byte is `M[pc]` (R91). -/
def Obligations.OpcodeFetchIsBoundsChecked : Prop :=
  ∀ s : State, s.run = .running →
    (s.memLen ≤ s.pc.toNat → step s = .next { s with run := .faulted (.fetchOutOfBounds s.pc.toNat) }) ∧
    (s.pc.toNat < s.memLen → ∃ rest, s.fetchWindow = s.mem.read s.pc.toNat :: rest)

/-- A byte in 0x10 to 0xFF at `pc` raises IllegalOpcode with the address and the byte, whatever stands after it, and
changes nothing else (R152, R57, R92, R156). That the range is 0x10 to 0xFF is the spec's decision D1, the model's
`OPBASE = 0` (R4; Log 1); that `pc` stays is D10 (Log 12), the payload D7 (Log 17), and the check before any operand fetch
D25 (Log 19). -/
def Obligations.IllegalOpcodeFaults : Prop :=
  ∀ s : State, s.run = .running → s.pc.toNat < s.memLen → 0x10 ≤ (s.mem.read s.pc.toNat).toNat →
    step s = .next { s with run := .faulted (.illegalOpcode s.pc (s.mem.read s.pc.toNat)) }

/-- An instruction whose bytes run past the end of memory raises FetchOutOfBounds(MEMLEN) before any effect, also when
its data address would be invalid too, or its jump would not be taken (R93, R151, R155; the spec's decision D9,
Log 19; that `pc` stays is D10, Log 12). -/
def Obligations.TruncatedInstructionFaults : Prop :=
  ∀ (s : State) (t : Opcode), s.run = .running → s.pc.toNat < s.memLen → opcodeOf (s.mem.read s.pc.toNat) = some t →
    s.memLen < s.pc.toNat + t.length → step s = .next { s with run := .faulted (.fetchOutOfBounds s.memLen) }

/-- The machine's step is the spec's pseudocode: `step()` of R90 over the primitives FetchRead, MemRead and MemWrite,
with the effects of R94 by opcode number, the checks in the order of R97 and the advance of R95; on every state of a
running core. It rests on the spec's decisions D1 to D4, D7 to D11, D16, D25 and D26 that those rules mark (Logs 1, 2, 4
to 6, 12, 13, 17 and 19). -/
def Obligations.StepRefinesPseudocode : Prop :=
  ∀ s : State, s.run = .running → step s = .next (pseudoStep s)

/-- Every step answers a next state: no state makes the machine stop outside its own run states (R98). It is the model's
choice that the step of a stopped core answers the same state (Log 9; R99 says that no step is taken), and that taking an
ExecutionFault is a next state (Log 10, read from R156). -/
def Obligations.StepIsTotal : Prop :=
  ∀ s : State, ∃ t, step s = .next t

/-! ## What each instruction does -/

/-- Nop changes `pc` alone, by one (R100). -/
def Obligations.NopCompletes : Prop :=
  ∀ s : State, s.pc.toNat + 1 < 4294967296 → exec .nop s = .next { s with pc := s.pc + 1 }

/-- Exit sets the run state to Exited with its code and changes nothing else, `pc` included, as a meaning and as the step
that finds its two bytes at `pc` (R101; `pc` after a stop is the spec's decision D10, Log 12, and the opcode byte 0x01 its
decision D1, the model's `OPBASE = 0`, R4, Log 1). -/
def Obligations.ExitCompletes : Prop :=
  ∀ (s : State) (code : Byte),
    exec (.exit code) s = .next { s with run := .exited code } ∧
    (s.run = .running → s.holdsAt s.pc.toNat [0x01, code] = true →
      step s = .next { s with run := .exited code })

/-- Add, Subtract and Multiply write C, and only C, with the exact result of A and B modulo 256, and advance by one (R110
to R114). Wraparound is the spec's decision D2 (Log 2), `A - B` its decision D3 (Log 5). -/
def Obligations.ArithmeticCompletes : Prop :=
  ∀ s : State, s.pc.toNat + 1 < 4294967296 →
    exec .add s = .next { s with regC := BitVec.ofNat 8 ((s.regA.toNat + s.regB.toNat) % 256), pc := s.pc + 1 } ∧
    exec .subtract s =
      .next { s with regC := BitVec.ofNat 8 ((s.regA.toNat + 256 - s.regB.toNat) % 256), pc := s.pc + 1 } ∧
    exec .multiply s = .next { s with regC := BitVec.ofNat 8 ((s.regA.toNat * s.regB.toNat) % 256), pc := s.pc + 1 }

/-- LoadA, LoadB and LoadC: at a valid address the byte there goes into the named register, and only into it, and `pc`
advances by five; at any other address the step ends in DataOutOfBounds(addr) with the register and `pc` as they were
(R123, R120 to R122). -/
def Obligations.LoadsReadOneByte : Prop :=
  ∀ (s : State) (addr : Addr),
    (addr.toNat < s.memLen → s.pc.toNat + 5 < 4294967296 →
      exec (.loadA addr) s = .next { s with regA := s.mem.read addr.toNat, pc := s.pc + 5 } ∧
      exec (.loadB addr) s = .next { s with regB := s.mem.read addr.toNat, pc := s.pc + 5 } ∧
      exec (.loadC addr) s = .next { s with regC := s.mem.read addr.toNat, pc := s.pc + 5 }) ∧
    (s.memLen ≤ addr.toNat →
      exec (.loadA addr) s = .next { s with run := .faulted (.dataOutOfBounds addr) } ∧
      exec (.loadB addr) s = .next { s with run := .faulted (.dataOutOfBounds addr) } ∧
      exec (.loadC addr) s = .next { s with run := .faulted (.dataOutOfBounds addr) })

/-- StoreA, StoreB and StoreC: at a valid address the one cell at the effective address takes the whole register, every
other cell reads as before, no register changes and `pc` advances by five; at any other address the step ends in
DataOutOfBounds(addr) with no cell written and `pc` as it was (R133, R130 to R132). -/
def Obligations.StoresWriteOneByte : Prop :=
  ∀ (s : State) (addr : Addr) (r : Reg), s.Inv →
    (addr.toNat < s.memLen → s.pc.toNat + 5 < 4294967296 →
      ∃ t, exec (Instr.storeOf addr r) s = .next t ∧ t = { s with pc := s.pc + 5, mem := t.mem } ∧
        t.mem.read (effectiveAddress addr) = s.getReg r ∧
        ∀ a, a ≠ effectiveAddress addr → t.mem.read a = s.mem.read a) ∧
    (s.memLen ≤ addr.toNat →
      exec (Instr.storeOf addr r) s = .next { s with run := .faulted (.dataOutOfBounds addr) })

/-- Jump, Jeq, Jneq, Jgt and Jlt: taken, `pc` becomes the operand exactly and nothing else changes, whatever the operand;
not taken, `pc` advances by five, nothing else changes, and the operand does not matter (R140 to R146, R96). The
unsigned comparison is the spec's decision D4 (Log 6), the unchecked target its decision D8 (Log 4). -/
def Obligations.JumpsComplete : Prop :=
  ∀ (s : State) (addr : Addr),
    exec (.jump addr) s = .next { s with pc := addr } ∧
    (s.regA = s.regB → exec (.jeq addr) s = .next { s with pc := addr }) ∧
    (s.regA ≠ s.regB → exec (.jneq addr) s = .next { s with pc := addr }) ∧
    (s.regB.toNat < s.regA.toNat → exec (.jgt addr) s = .next { s with pc := addr }) ∧
    (s.regA.toNat < s.regB.toNat → exec (.jlt addr) s = .next { s with pc := addr }) ∧
    (s.pc.toNat + 5 < 4294967296 →
      (s.regA ≠ s.regB → exec (.jeq addr) s = .next { s with pc := s.pc + 5 }) ∧
      (s.regA = s.regB → exec (.jneq addr) s = .next { s with pc := s.pc + 5 }) ∧
      (s.regA.toNat ≤ s.regB.toNat → exec (.jgt addr) s = .next { s with pc := s.pc + 5 }) ∧
      (s.regB.toNat ≤ s.regA.toNat → exec (.jlt addr) s = .next { s with pc := s.pc + 5 }))

/-- An instruction that neither stops the core nor writes `pc`, at an address from which the advance would pass
`2^32 - 1`, has its effect and then ends in FetchOutOfBounds(pc + LEN) with `pc` unchanged (R95, R15, R97, R151; the
spec's decision D11, Log 13). The effects are those of R100, R110 to R114, R120 to R123, R130 to R133 and R141 to R146:
wraparound is decision D2 (Log 2), `A - B` is D3 (Log 5), the unsigned comparison is D4 (Log 6). -/
def Obligations.AdvancePastTopFaultsAfterEffect : Prop :=
  ∀ (s : State) (addr : Addr),
    (4294967296 ≤ s.pc.toNat + 1 →
      exec .nop s = .next { s with run := .faulted (.fetchOutOfBounds (s.pc.toNat + 1)) } ∧
      exec .add s = .next { s with
        regC := BitVec.ofNat 8 ((s.regA.toNat + s.regB.toNat) % 256)
        run := .faulted (.fetchOutOfBounds (s.pc.toNat + 1)) } ∧
      exec .subtract s = .next { s with
        regC := BitVec.ofNat 8 ((s.regA.toNat + 256 - s.regB.toNat) % 256)
        run := .faulted (.fetchOutOfBounds (s.pc.toNat + 1)) } ∧
      exec .multiply s = .next { s with
        regC := BitVec.ofNat 8 ((s.regA.toNat * s.regB.toNat) % 256)
        run := .faulted (.fetchOutOfBounds (s.pc.toNat + 1)) }) ∧
    (4294967296 ≤ s.pc.toNat + 5 →
      (addr.toNat < s.memLen → ∀ r : Reg,
        exec (Instr.loadOf addr r) s = .next { s.setReg r (s.mem.read addr.toNat) with
          run := .faulted (.fetchOutOfBounds (s.pc.toNat + 5)) } ∧
        exec (Instr.storeOf addr r) s = .next { s with
          mem := s.mem.write (effectiveAddress addr) (s.getReg r)
          run := .faulted (.fetchOutOfBounds (s.pc.toNat + 5)) }) ∧
      (s.regA ≠ s.regB →
        exec (.jeq addr) s = .next { s with run := .faulted (.fetchOutOfBounds (s.pc.toNat + 5)) }) ∧
      (s.regA = s.regB →
        exec (.jneq addr) s = .next { s with run := .faulted (.fetchOutOfBounds (s.pc.toNat + 5)) }) ∧
      (s.regA.toNat ≤ s.regB.toNat →
        exec (.jgt addr) s = .next { s with run := .faulted (.fetchOutOfBounds (s.pc.toNat + 5)) }) ∧
      (s.regB.toNat ≤ s.regA.toNat →
        exec (.jlt addr) s = .next { s with run := .faulted (.fetchOutOfBounds (s.pc.toNat + 5)) }))

/-- At any A and B and a target other than the jump itself and the instruction after it: exactly one of Jeq and Jneq is
taken, at most one of Jgt and Jlt, and one of these exactly when Jneq is (R146; decision D4, Log 6). -/
def Obligations.ConditionsExcludeEachOther : Prop :=
  ∀ (s : State) (addr : Addr) (eq neq gt lt : State),
    addr ≠ s.pc → addr.toNat ≠ s.pc.toNat + 5 →
    exec (.jeq addr) s = .next eq → exec (.jneq addr) s = .next neq →
    exec (.jgt addr) s = .next gt → exec (.jlt addr) s = .next lt →
    (eq.pc = addr ↔ ¬ neq.pc = addr) ∧ ¬ (gt.pc = addr ∧ lt.pc = addr) ∧
    (neq.pc = addr ↔ gt.pc = addr ∨ lt.pc = addr)

/-! ## Frames -/

/-- No instruction reads or writes a register that R11 does not list for it: a register changes only under an
instruction that writes it, and the value of a register an instruction does not read makes no difference to anything
but that register itself. -/
def Obligations.RegistersReadAndWrittenAsListed : Prop :=
  ∀ (i : Instr) (s t : State) (r : Reg), exec i s = .next t →
    (t.getReg r ≠ s.getReg r → i.writes r = true) ∧
    (i.reads r = false → ∀ v : Byte, ∃ t', exec i (s.setReg r v) = .next t' ∧ t.agreesBut r t' ∧
      (t'.getReg r = t.getReg r ∨ (t.getReg r = s.getReg r ∧ t'.getReg r = v)))

/-- A byte of memory changes in a step only if the instruction at `pc` is a store whose effective address it is, and then
it holds the stored register; `MEMLEN`, which the model carries in State (Log 7), never changes (R20, R33, R94, R133). -/
def Obligations.OnlyStoresChangeMemory : Prop :=
  ∀ s t : State, s.Inv → step s = .next t →
    t.memLen = s.memLen ∧
    ∀ a, t.mem.read a ≠ s.mem.read a →
      s.run = .running ∧ ∃ addr r, s.fetchInstr = .ok (Instr.storeOf addr r) ∧ effectiveAddress addr = a ∧
        a < s.memLen ∧ t.mem.read a = s.getReg r

/-- The value of `pc` after the step of a running core, instruction by instruction (the table of R14): if the core still
runs, the listed value, without wrap-around (the spec's decision D11, Log 13); if it stopped, the value it had (D10,
Log 12). That Jgt and Jlt compare A with B as unsigned numbers is D4 (R146, Log 6), and that a target is not checked
is D8 (R145, Log 4). -/
def Obligations.PcAfterStepAsListed : Prop :=
  ∀ (s t : State) (i : Instr), s.run = .running → s.fetchInstr = .ok i → step s = .next t →
    (t.run ≠ .running → t.pc = s.pc) ∧
    (t.run = .running →
      match i with
      | .nop => t.pc.toNat = s.pc.toNat + 1
      | .add => t.pc.toNat = s.pc.toNat + 1
      | .subtract => t.pc.toNat = s.pc.toNat + 1
      | .multiply => t.pc.toNat = s.pc.toNat + 1
      | .exit _ => False
      | .loadA _ => t.pc.toNat = s.pc.toNat + 5
      | .loadB _ => t.pc.toNat = s.pc.toNat + 5
      | .loadC _ => t.pc.toNat = s.pc.toNat + 5
      | .storeA _ => t.pc.toNat = s.pc.toNat + 5
      | .storeB _ => t.pc.toNat = s.pc.toNat + 5
      | .storeC _ => t.pc.toNat = s.pc.toNat + 5
      | .jump addr => t.pc = addr
      | .jeq addr => if s.regA.toNat = s.regB.toNat then t.pc = addr else t.pc.toNat = s.pc.toNat + 5
      | .jneq addr => if s.regA.toNat ≠ s.regB.toNat then t.pc = addr else t.pc.toNat = s.pc.toNat + 5
      | .jgt addr => if s.regA.toNat > s.regB.toNat then t.pc = addr else t.pc.toNat = s.pc.toNat + 5
      | .jlt addr => if s.regA.toNat < s.regB.toNat then t.pc = addr else t.pc.toNat = s.pc.toNat + 5)

/-- A fault is precise, by what the fetch answers. If the fetch faults, that is the fault and nothing but the run state
changes. If it answers an instruction, the fault is either that of its data address, and nothing but the run state
changes, or that of the advance past `2^32 - 1`: then the instruction's effect has been done and `pc` is as it was. The
effect is written as the one the instruction has on the same state at address 0, from which the advance does not pass the
top; no effect but that of a taken jump reads or writes `pc`. No instruction that was fetched is an illegal opcode (R156,
R97, R153, R95; the spec's decisions D10 and D26, Log 12, D11, Log 13, and D7, Log 17). -/
def Obligations.FaultsArePrecise : Prop :=
  ∀ (s t : State) (f : ExecutionFault), s.run = .running → step s = .next t → t.run = .faulted f →
    t.pc = s.pc ∧
    match s.fetchInstr, f with
    | .error g, f => f = g ∧ t = { s with run := .faulted f }
    | .ok i, .dataOutOfBounds addr =>
      t = { s with run := .faulted (.dataOutOfBounds addr) } ∧ s.memLen ≤ addr.toNat ∧
        ∃ r, i = Instr.loadOf addr r ∨ i = Instr.storeOf addr r
    | .ok i, .fetchOutOfBounds a =>
      a = s.pc.toNat + i.length ∧ 4294967296 ≤ a ∧
        ∃ u, exec i { s with pc := 0 } = .next u ∧ u.run = .running ∧ u.pc.toNat = i.length ∧
          t = { u with pc := s.pc, run := .faulted (.fetchOutOfBounds a) }
    | .ok _, .illegalOpcode _ _ => False

/-! ## Memory ordering -/

/-- A store followed at once by a load from the same address: the load observes the stored value, for every register
stored and every register loaded (R40). -/
def Obligations.StoreThenLoadObservesStoredValue : Prop :=
  ∀ (s : State) (addr : Addr) (r q : Reg), s.Inv → addr.toNat < s.memLen → s.pc.toNat + 10 < 4294967296 →
    ∃ t u, exec (Instr.storeOf addr r) s = .next t ∧ exec (Instr.loadOf addr q) t = .next u ∧
      u.getReg q = s.getReg r

/-- A store into the bytes of its own successor is seen by the next fetch: the decoder's byte at that place is the stored
register (R42; the spec's decision D15, Log 19). -/
def Obligations.StoreIsSeenByNextFetch : Prop :=
  ∀ (s : State) (addr : Addr) (r : Reg) (k : Nat), s.Inv → s.run = .running →
    s.holdsAt s.pc.toNat (encode (Instr.storeOf addr r)) = true → addr.toNat < s.memLen →
    k < 5 → addr.toNat = s.pc.toNat + 5 + k →
    ∃ t, step s = .next t ∧ t.run = .running ∧ t.pc.toNat = s.pc.toNat + 5 ∧
      t.fetchWindow[k]? = some (s.getReg r)

/-- Every access of a step is at a valid address (R38, R43, R25; the list of accesses is the model's own form, Log 15). -/
def Obligations.AccessesAreInBounds : Prop :=
  ∀ (s : State) (x : Access), x ∈ s.stepAccesses → x.address < s.memLen

/-- The accesses of an instruction are those of R33 in the order of R43: its own bytes in ascending order, the opcode
byte first, then one data read for a load and one data write of the register for a store, at the operand address if it
is valid, and no other. The order is the spec's decision D16, the whole operand fetch of a jump that is not taken its
decision D9 (both Log 19), and the ordered list of accesses is the model's own form of them (Log 15). -/
def Obligations.AccessesFollowTable : Prop :=
  ∀ (s : State) (i : Instr), s.run = .running → s.fetchInstr = .ok i →
    (s.stepAccesses.take (encode i).length).map Access.address =
      (List.range (encode i).length).map (fun k => s.pc.toNat + k) ∧
    (s.stepAccesses.take (encode i).length).map Access.value = encode i ∧
    (s.stepAccesses.take (encode i).length).map Access.kind =
      .opcodeFetch :: List.replicate ((encode i).length - 1) .operandFetch ∧
    ((∀ addr r, i ≠ Instr.loadOf addr r ∧ i ≠ Instr.storeOf addr r) →
      s.stepAccesses.drop (encode i).length = []) ∧
    (∀ addr r, i = Instr.loadOf addr r → s.stepAccesses.drop (encode i).length =
      if addr.toNat < s.memLen then [⟨.dataRead, addr.toNat, s.mem.read addr.toNat⟩] else []) ∧
    (∀ addr r, i = Instr.storeOf addr r → s.stepAccesses.drop (encode i).length =
      if addr.toNat < s.memLen then [⟨.dataWrite, addr.toNat, s.getReg r⟩] else [])

/-- The memory after a step is the memory before it with the step's accesses applied in order (R35, R39; the list
of accesses is the model's own form, Log 15). -/
def Obligations.AccessesAccountForMemory : Prop :=
  ∀ s t : State, step s = .next t → t.mem = s.stepAccesses.foldl Memory.afterAccess s.mem

/-! ## The invariant -/

/-- Every step keeps the invariant: memory in canonical form and inside `MEMLEN`, `MEMLEN` at most `2^32`, and a stop that
the state explains: an exit by the Exit instruction at `pc` with that code, an illegal opcode by the byte at `pc`, a data
fault by the load or store at `pc` with that operand, a fetch fault by the first address out of bounds from `pc` on, or by
the advance past `2^32 - 1` (R20, R101, R151 to R156, R183). It rests on the spec's decisions D10 for `pc` after a stop
(Log 12), D7 for the payloads (Log 17), D9 for a truncated instruction (Log 19), D11 for the advance (Log 13), D6 for the
bound on `MEMLEN` (Log 7) and D1 for which bytes are illegal (Log 1). -/
def Obligations.StepKeepsInvariant : Prop :=
  ∀ s t : State, s.Inv → step s = .next t → t.Inv

/-- The invariant holds at reset with nothing loaded and after construction from any accepted image (R171, R166, R20).
That reset with nothing loaded is the empty image is the model's choice (Log 8), and that a buffer of exactly `2^32`
bytes is accepted is the spec's decision D6 (Log 7). -/
def Obligations.ResetMeetsInvariant : Prop :=
  State.reset.Inv ∧
  ∀ image : List Byte, image.length ≤ 4294967296 → ∃ s, construct image = .next s ∧ s.Inv

/-! ## The run -/

/-- A stopped core stays as it is for any number of steps: Exited and Faulted are terminal (R99, R158, R18). That `step`
answers the same state, and not no state, is the model's choice (Log 9). -/
def Obligations.StoppedCoreStaysStopped : Prop :=
  ∀ (n : Nat) (s : State), s.run ≠ .running → runSteps n s = .next s

/-- The step of a running core exits with a code exactly when the two bytes of that Exit instruction stand at `pc`, both
in bounds; it never leaves the core running with another code (R18, R101, R183). The opcode byte 0x01 is the spec's
decision D1, the model's `OPBASE = 0` (R4; Log 1), and that an Exit without its code byte does not exit is its decision
D9 (R93; Log 19). -/
def Obligations.ExitsExactlyByExitInstruction : Prop :=
  ∀ (s t : State) (code : Byte), s.run = .running → step s = .next t →
    (t.run = .exited code ↔ s.holdsAt s.pc.toNat [0x01, code] = true)

/-- A taken jump of the whole jump family, Jump or a conditional jump whose condition holds, to an address at or beyond
`MEMLEN` completes, and the next step faults there without having read anything (R145, R91; decisions D8 and D4, Logs 4
and 6). -/
def Obligations.JumpBeyondMemoryFaultsOnNextStep : Prop :=
  ∀ (s : State) (addr : Addr) (i : Instr), s.run = .running →
    (i = .jump addr ∨ (i = .jeq addr ∧ s.regA = s.regB) ∨ (i = .jneq addr ∧ s.regA ≠ s.regB) ∨
      (i = .jgt addr ∧ s.regB.toNat < s.regA.toNat) ∨ (i = .jlt addr ∧ s.regA.toNat < s.regB.toNat)) →
    s.holdsAt s.pc.toNat (encode i) = true → s.memLen ≤ addr.toNat →
    runSteps 1 s = .next { s with pc := addr } ∧
    runSteps 2 s = .next { s with pc := addr, run := .faulted (.fetchOutOfBounds addr.toNat) }

/-- A jump to its own address runs for ever: after any number of steps the state is the same, and no fault is ever
reached (R179, R140). That the machine has no instruction budget and no watchdog is the spec's decision D14 (Log 21). -/
def Obligations.JumpToSelfRunsForever : Prop :=
  ∀ s : State, s.run = .running → s.holdsAt s.pc.toNat (encode (.jump s.pc)) = true →
    (∀ n, runSteps n s = .next s) ∧ s.safe

/-- A runner with fuel reports what the steps do: an exit or a fault after at most that many steps, or fuel exhausted
with the core still running after exactly that many; never a stop of the model (R98, R179). That fuel is
the runner's and no part of the machine is the spec's decision D14 (Log 21). -/
def Obligations.RunnerAgreesWithSteps : Prop :=
  ∀ (fuel : Nat) (s : State),
    match runFuel fuel s with
    | .exited code t => t.run = .exited code ∧ ∃ n, n ≤ fuel ∧ runSteps n s = .next t
    | .faulted f t => t.run = .faulted f ∧ ∃ n, n ≤ fuel ∧ runSteps n s = .next t
    | .fuelExhausted t => t.run = .running ∧ runSteps fuel s = .next t
    | .modelFault _ => False
    | .modelRefused _ => False

/-! ## Reset and the host -/

/-- Construction from any byte buffer of at most `2^32` bytes leaves the core running at address 0 with A, B and C zero,
`MEMLEN` the buffer's length and memory exactly the buffer's bytes (R171, R172, R181, R20). The zero registers are the
spec's decision D5 (Log 3), and acceptance of a buffer of exactly `2^32` bytes is its decision D6 (Log 7). -/
def Obligations.ConstructionLoadsImage : Prop :=
  ∀ image : List Byte, image.length ≤ 4294967296 →
    ∃ s, construct image = .next s ∧ s.run = .running ∧ s.pc = 0 ∧ s.regA = 0 ∧ s.regB = 0 ∧ s.regC = 0 ∧
      s.memLen = image.length ∧ ∀ a b, image[a]? = some b → s.mem.read a = b

/-- A buffer of more than `2^32` bytes is a ConfigError and there is no machine; an empty one is accepted, and its first
step faults at address 0 (R166, R91; the exact limit is the spec's decision D6, Log 7). -/
def Obligations.OversizedImageIsConfigError : Prop :=
  (∀ image : List Byte, 4294967296 < image.length → construct image = .fault (.configError image.length)) ∧
  ∃ s t, construct [] = .next s ∧ step s = .next t ∧ t.run = .faulted (.fetchOutOfBounds 0)

/-- Reset after any number of steps keeps the memory that the run left, and `MEMLEN`, and puts everything else to its
reset value; the invariant holds again (R172, R171, R184; the spec's decisions D5, Log 3, and
D18, Log 14). -/
def Obligations.ResetKeepsMemory : Prop :=
  ∀ (n : Nat) (s t : State), s.Inv → runSteps n s = .next t →
    (hostReset t).Inv ∧ (hostReset t).mem = t.mem ∧ (hostReset t).memLen = s.memLen ∧
    (hostReset t).run = .running ∧ (hostReset t).pc = 0 ∧
    (hostReset t).regA = 0 ∧ (hostReset t).regB = 0 ∧ (hostReset t).regC = 0

/-- After a store and then an exit, the host reads at that address what was stored, and at every other valid address what
was there before; a read while the core runs, and one at an address at or beyond `MEMLEN`, is refused (R182, R184;
decision D19, Log 14). -/
def Obligations.HostReadsStoredByteAfterExit : Prop :=
  ∀ (s : State) (addr : Addr) (r : Reg) (code : Byte), s.Inv → s.run = .running → addr.toNat < s.memLen →
    s.pc.toNat + 5 < 4294967296 →
    ∃ t u, exec (Instr.storeOf addr r) s = .next t ∧ exec (.exit code) t = .next u ∧
      hostReadCell u addr.toNat = .ok (s.getReg r) ∧
      (∀ a, a < s.memLen → a ≠ addr.toNat → hostReadCell u a = .ok (s.mem.read a)) ∧
      (∀ a, hostReadCell t a = .error .hostAccessWhileRunning) ∧
      ∀ a, s.memLen ≤ a → hostReadCell u a = .error (.hostReadOutOfBounds a)

/-- A fault and an exit can never be confused: the run states differ and so does the status port, whatever the code and
the fault (R167). -/
def Obligations.FaultIsNeverAnExit : Prop :=
  ∀ (s t : State) (code : Byte) (f : ExecutionFault), s.run = .exited code → t.run = .faulted f →
    s.run ≠ t.run ∧ s.statusPort ≠ t.statusPort

/-- The output ports report the run state in full: status 0, 1 or 2, the exit code, the fault's kind code, and a 33-bit
payload that loses nothing; an illegal opcode's byte can be read from memory at `pc`, and it is at least 0x10 (R25, R154,
R152; the spec's decisions D7, D10 and D13, Logs 17, 12 and 15; that the illegal bytes begin at 0x10 is its decision D1, the
model's `OPBASE = 0`, R4, Log 1). -/
def Obligations.PortsReportRunState : Prop :=
  ∀ s : State, s.Inv →
    match s.run with
    | .running => s.statusPort = 0 ∧ s.exitCodePort = 0 ∧ s.faultKindPort = 0 ∧ s.faultInfoPort = 0
    | .exited code => s.statusPort = 1 ∧ s.exitCodePort = code ∧ s.faultKindPort = 0 ∧ s.faultInfoPort = 0
    | .faulted (.fetchOutOfBounds a) =>
      s.statusPort = 2 ∧ s.exitCodePort = 0 ∧ s.faultKindPort = 1 ∧ s.faultInfoPort.toNat = a
    | .faulted (.illegalOpcode p b) =>
      s.statusPort = 2 ∧ s.exitCodePort = 0 ∧ s.faultKindPort = 2 ∧ s.faultInfoPort.toNat = s.pc.toNat ∧ p = s.pc ∧
        s.mem.read s.pc.toNat = b ∧ 0x10 ≤ b.toNat
    | .faulted (.dataOutOfBounds addr) =>
      s.statusPort = 2 ∧ s.exitCodePort = 0 ∧ s.faultKindPort = 3 ∧ s.faultInfoPort.toNat = addr.toNat

/-! ## The image the assembler makes -/

/-- An image the linker makes is the leading jump to `5 + D`, a 32-bit address, then the data bytes in declaration order,
then the bytes that the tokens of the code sections are emitted as, in source order, as many as the code sections have
(R84, R37, R81; that an address is below `2^32` is the model's choice, Log 20). What each token is emitted as is
`LinkedTokensDecode`. -/
def Obligations.LinkedImageLayout : Prop :=
  ∀ (p : Program) (image : List Byte), link p = .ok image →
    5 + p.data.length < 4294967296 ∧
    ∃ code : List Byte,
      image = encode (.jump (BitVec.ofNat 32 (5 + p.data.length))) ++ p.data.map Prod.snd ++ code ∧
      emitTokens p.labels (p.code.flatMap fun c => c.tokens) = .ok code ∧
      code.length = (p.code.map fun c => sectionSize c.tokens).sum

/-- In a linked image the bytes of every token of the code stand where the sizes of the tokens before it put them, and
decode to the instruction the token names: an Exit with its code, an instruction of a label with the address that the
label is bound to, a 32-bit number (R84, R75, R81, R85; the opcode bytes are the spec's decision D1, Log 1, and that an
address of `2^32` or more makes no image is the model's choice, Log 20). The data clause, one byte at the declaration's
place, is the model's choice too: the spec leaves open what a declaration in a code section does (N29), and no program
that `programOf` makes has one (Log 16). So is the zero operand of a plain token whose opcode takes one, which the
tokenizer makes none of (Log 16). -/
def Obligations.LinkedTokensDecode : Prop :=
  ∀ (p : Program) (image : List Byte) (before after : List Token) (tok : Token), link p = .ok image →
    (p.code.flatMap fun c => c.tokens) = before ++ tok :: after →
    let place := 5 + p.data.length + (before.map tokenSize).sum
    match tok with
    | .ignore => tokenSize tok = 0
    | .data _ value => image[place]? = some value
    | .plain t => decode (image.drop place) = .instr (t.withOperand 0 0) (image.drop (place + t.length))
    | .exitWith code => decode (image.drop place) = .instr (.exit code) (image.drop (place + 2))
    | .labelled t label _ => ∃ a, lookupLabel p.labels label = some a ∧ a < 4294967296 ∧
        decode (image.drop place) = .instr (t.withOperand 0 (BitVec.ofNat 32 a)) (image.drop (place + t.length))

/-- An undeclared label fails the link with an error that names the label, the instruction and its line, and no image is
made, whatever stands after it; the tokens before it being emitted without error (R84, R87). -/
def Obligations.UnresolvedLabelFailsLink : Prop :=
  ∀ (p : Program) (before after : List Token) (t : Opcode) (label line : Text) (bytes : List Byte),
    duplicateIn p.labels = none → (p.code.flatMap fun c => c.tokens) = before ++ .labelled t label line :: after →
    emitTokens p.labels before = .ok bytes → lookupLabel p.labels label = none →
    link p = .error (.unresolvedLabel label t line)

/-- A program without a section header is invalid, whatever its lines are, well formed or not (R80). A line counts as a
possible header if it ends in a colon, with or without a trailing comment (N22, N23; Log 16). -/
def Obligations.ProgramWithoutHeaderIsInvalid : Prop :=
  ∀ lines : List Text,
    (∀ raw, raw ∈ lines → isIgnored raw = true ∨
      ((trim raw).getLast? ≠ some ':' ∧ (trim (beforeComment (trim raw))).getLast? ≠ some ':')) →
    assemble lines = .error .noSectionHeader

/-- In a linked image the label of the `i`-th data declaration is bound to `5 + i`, and the byte there is its declared
value (R83). -/
def Obligations.DataLabelPointsAtItsByte : Prop :=
  ∀ (p : Program) (image : List Byte) (i : Nat) (name : Text) (value : Byte), link p = .ok image →
    p.data[i]? = some (name, value) →
    lookupLabel p.labels name = some (5 + i) ∧ image[5 + i]? = some value

/-- In a linked image the label of a code section is bound to `5 + D` plus the sizes of the code sections before it (R82;
that sizes accumulate is the spec's decision D27, Log 16). -/
def Obligations.CodeLabelCountsSectionsBefore : Prop :=
  ∀ (p : Program) (image : List Byte) (before after : List Section) (c : Section), link p = .ok image →
    p.code = before ++ c :: after →
    lookupLabel p.labels c.name =
      some (5 + p.data.length + (before.map fun b => sectionSize b.tokens).sum)
end

