-- ==== Sys2Proof/Laws/Decode.lean ====
section
/-! SUPPORT. The small lemmas of the opcode map, of the address operand's bytes and of the decoder. -/

namespace Sys2Proof

/-! ## The opcode map -/

@[simp] theorem opcodeOf_byte (t : Opcode) : opcodeOf t.byte = some t := by cases t <;> rfl

theorem byte_of_opcodeOf {b : Byte} {t : Opcode} (h : opcodeOf b = some t) : t.byte = b := by
  have := List.find?_some h
  simpa using this

theorem mem_all (t : Opcode) : t ∈ Opcode.all := by cases t <;> decide

theorem byte_toNat_lt (t : Opcode) : t.byte.toNat < 16 := by cases t <;> decide

theorem opcodeOf_isSome_iff (b : Byte) : (opcodeOf b).isSome = true ↔ opcodeByteWellFormed b = true := by
  revert b; decide

theorem opcodeOf_eq_none_iff (b : Byte) : opcodeOf b = none ↔ 16 ≤ b.toNat := by
  revert b; decide

theorem opcode_withOperand (t : Opcode) (imm8 : Byte) (addr : Addr) : (t.withOperand imm8 addr).opcode = t := by
  cases t <;> rfl

theorem length_cases (t : Opcode) :
    (t.format = .f1 ∧ t.length = 1) ∨ (t.format = .f2 ∧ t.length = 2) ∨ (t.format = .f5 ∧ t.length = 5) := by
  cases t <;> simp [Opcode.format, Opcode.length, Format.length]

/-! ## The address operand -/

theorem addressOfBytes_toNat (a3 a2 a1 a0 : Byte) :
    (addressOfBytes a3 a2 a1 a0).toNat =
      a3.toNat * 2 ^ 24 + a2.toNat * 2 ^ 16 + a1.toNat * 2 ^ 8 + a0.toNat := by
  have h2 := a2.isLt
  have h1 := a1.isLt
  have h0 := a0.isLt
  simp only [addressOfBytes, BitVec.toNat_append]
  rw [← Nat.shiftLeft_add_eq_or_of_lt h2, ← Nat.shiftLeft_add_eq_or_of_lt h1, ← Nat.shiftLeft_add_eq_or_of_lt h0]
  simp only [Nat.shiftLeft_eq]
  omega

theorem length_bytesOfAddress (addr : Addr) : (bytesOfAddress addr).length = 4 := rfl

/-- The four bytes of an address, assembled, are the address. -/
theorem addressOfBytes_extract (addr : Addr) :
    addressOfBytes (addr.extractLsb' 24 8) (addr.extractLsb' 16 8) (addr.extractLsb' 8 8) (addr.extractLsb' 0 8)
      = addr := by
  apply BitVec.eq_of_toNat_eq
  rw [addressOfBytes_toNat]
  simp only [BitVec.extractLsb'_toNat, Nat.shiftRight_eq_div_pow]
  have := addr.isLt
  omega

/-- The bytes of an assembled address are the bytes it was assembled from. -/
theorem bytesOfAddress_addressOfBytes (a3 a2 a1 a0 : Byte) :
    bytesOfAddress (addressOfBytes a3 a2 a1 a0) = [a3, a2, a1, a0] := by
  have h3 := a3.isLt
  have h2 := a2.isLt
  have h1 := a1.isLt
  have h0 := a0.isLt
  have e : ∀ (start : Nat) (b : Byte), (addressOfBytes a3 a2 a1 a0).toNat / 2 ^ start % 256 = b.toNat →
      (addressOfBytes a3 a2 a1 a0).extractLsb' start 8 = b := by
    intro start b h
    apply BitVec.eq_of_toNat_eq
    simpa [BitVec.extractLsb'_toNat, Nat.shiftRight_eq_div_pow] using h
  rw [bytesOfAddress, e 24 a3, e 16 a2, e 8 a1, e 0 a0]
  all_goals rw [addressOfBytes_toNat]; omega

/-! ## The decoder -/

@[simp] theorem decode_nil : decode [] = .truncated 0 := rfl

theorem decode_illegal {b : Byte} (h : opcodeOf b = none) (rest : List Byte) : decode (b :: rest) = .illegal b := by
  simp [decode, h]

theorem decode_opcode {b : Byte} {t : Opcode} (h : opcodeOf b = some t) (rest : List Byte) :
    decode (b :: rest) = decodeOperand t rest := by
  simp [decode, h]

/-- Everything the operand decoder can do. -/
theorem decodeOperand_cases (t : Opcode) (rest : List Byte) :
    (t.format = .f1 ∧ decodeOperand t rest = .instr (t.withOperand 0 0) rest) ∨
    (t.format = .f2 ∧ ∃ imm8 rest', rest = imm8 :: rest' ∧
      decodeOperand t rest = .instr (t.withOperand imm8 0) rest') ∨
    (t.format = .f5 ∧ ∃ a3 a2 a1 a0 rest', rest = a3 :: a2 :: a1 :: a0 :: rest' ∧
      decodeOperand t rest = .instr (t.withOperand 0 (addressOfBytes a3 a2 a1 a0)) rest') ∨
    (1 + rest.length < t.length ∧ decodeOperand t rest = .truncated (1 + rest.length)) := by
  rcases length_cases t with ⟨hf, hl⟩ | ⟨hf, hl⟩ | ⟨hf, hl⟩
  · exact .inl ⟨hf, by simp [decodeOperand, hf]⟩
  · cases rest with
    | nil => exact .inr (.inr (.inr ⟨by simp [hl], by simp [decodeOperand, hf]⟩))
    | cons imm8 rest' => exact .inr (.inl ⟨hf, imm8, rest', rfl, by simp [decodeOperand, hf]⟩)
  · match rest with
    | a3 :: a2 :: a1 :: a0 :: rest' =>
      exact .inr (.inr (.inl ⟨hf, a3, a2, a1, a0, rest', rfl, by simp [decodeOperand, hf]⟩))
    | [] => exact .inr (.inr (.inr ⟨by simp [hl], by simp [decodeOperand, hf]⟩))
    | [_] => exact .inr (.inr (.inr ⟨by simp [hl], by simp [decodeOperand, hf]⟩))
    | [_, _] => exact .inr (.inr (.inr ⟨by simp [hl], by simp [decodeOperand, hf]⟩))
    | [_, _, _] => exact .inr (.inr (.inr ⟨by simp [hl], by simp [decodeOperand, hf]⟩))

/-- Everything the decoder can do: no byte, an illegal opcode byte, or an opcode and its operand. -/
theorem decode_cases (bytes : List Byte) :
    (bytes = [] ∧ decode bytes = .truncated 0) ∨
    (∃ b rest, bytes = b :: rest ∧ opcodeOf b = none ∧ decode bytes = .illegal b) ∨
    (∃ t rest, bytes = t.byte :: rest ∧ decode bytes = decodeOperand t rest) := by
  cases bytes with
  | nil => exact .inl ⟨rfl, rfl⟩
  | cons b rest =>
    cases h : opcodeOf b with
    | none => exact .inr (.inl ⟨b, rest, rfl, h, decode_illegal h rest⟩)
    | some t => exact .inr (.inr ⟨t, rest, by rw [byte_of_opcodeOf h], decode_opcode h rest⟩)

end Sys2Proof
end

