-- ==== Sys2Proof/Laws/Assembler.lean ====
section
/-! SUPPORT. What each step of the assembler's back end can do, and the lookup of a label that is bound once. -/

namespace Sys2Proof.Machine

/-! ## Emission -/

/-- Everything the emission of an addressed instruction can do. -/
theorem emitAddressed_cases (t : Opcode) (a : Nat) :
    (a < 4294967296 ∧ emitAddressed t a = .ok (encode (t.withOperand 0 (BitVec.ofNat 32 a)))) ∨
    (4294967296 ≤ a ∧ emitAddressed t a = .error (.addressTooLarge a)) := by
  by_cases h : a < 4294967296
  · exact .inl ⟨h, if_pos h⟩
  · exact .inr ⟨Nat.le_of_not_lt h, if_neg h⟩

theorem length_encode_withOperand (t : Opcode) (imm8 : Byte) (addr : Addr) :
    (encode (t.withOperand imm8 addr)).length = t.length := by
  cases t <;> rfl

/-- A token that is emitted takes the bytes that its size says (R81). -/
theorem length_emitToken {labels : List (Text × Nat)} {t : Token} {bytes : List Byte}
    (h : emitToken labels t = .ok bytes) : bytes.length = tokenSize t := by
  cases t with
  | ignore => cases h; rfl
  | data name value => cases h; rfl
  | plain t => cases h; exact length_encode_withOperand t 0 0
  | exitWith code => cases h; rfl
  | labelled t label line =>
    simp only [emitToken] at h
    split at h
    · rename_i a _
      rcases emitAddressed_cases t a with ⟨-, e⟩ | ⟨-, e⟩ <;> rw [e] at h <;> cases h
      exact length_encode_withOperand t 0 _
    · cases h

/-- Everything a non-empty run of tokens can be emitted as. -/
theorem emitTokens_cons_ok {labels : List (Text × Nat)} {t : Token} {rest : List Token} {bytes : List Byte}
    (h : emitTokens labels (t :: rest) = .ok bytes) :
    ∃ first more, emitToken labels t = .ok first ∧ emitTokens labels rest = .ok more ∧ bytes = first ++ more := by
  simp only [emitTokens] at h
  split at h
  · next first more h1 h2 => cases h; exact ⟨first, more, h1, h2, rfl⟩
  · cases h
  · cases h

/-- A run of tokens that is emitted is emitted in pieces. -/
theorem emitTokens_append_ok {labels : List (Text × Nat)} {before after : List Token} {bytes : List Byte}
    (h : emitTokens labels (before ++ after) = .ok bytes) :
    ∃ first more, emitTokens labels before = .ok first ∧ emitTokens labels after = .ok more ∧ bytes = first ++ more := by
  induction before generalizing bytes with
  | nil => exact ⟨[], bytes, rfl, h, rfl⟩
  | cons t before ih =>
    obtain ⟨head, tail, h1, h2, rfl⟩ := emitTokens_cons_ok h
    obtain ⟨first, more, h3, h4, rfl⟩ := ih h2
    exact ⟨head ++ first, more, by rw [emitTokens, h1, h3], h4, (List.append_assoc ..).symm⟩

/-- The first error of a run of tokens is the answer. -/
theorem emitTokens_append_error {labels : List (Text × Nat)} {before after : List Token} {bytes : List Byte} {e : AsmError}
    (hb : emitTokens labels before = .ok bytes) (ha : emitTokens labels after = .error e) :
    emitTokens labels (before ++ after) = .error e := by
  induction before generalizing bytes with
  | nil => exact ha
  | cons t before ih =>
    obtain ⟨head, tail, h1, h2, -⟩ := emitTokens_cons_ok hb
    rw [List.cons_append, emitTokens, h1, ih h2]

/-- A run of tokens that is emitted takes the bytes that its size says (R81). -/
theorem length_emitTokens {labels : List (Text × Nat)} {ts : List Token} {bytes : List Byte}
    (h : emitTokens labels ts = .ok bytes) : bytes.length = sectionSize ts := by
  induction ts generalizing bytes with
  | nil => cases h; rfl
  | cons t ts ih =>
    obtain ⟨first, more, h1, h2, rfl⟩ := emitTokens_cons_ok h
    simp [length_emitToken h1, ih h2, sectionSize]

/-- Everything a link that makes an image has done. -/
theorem link_ok {p : Program} {image : List Byte} (h : link p = .ok image) :
    duplicateIn p.labels = none ∧ p.codeStart < 4294967296 ∧ ∃ code, emitTokens p.labels p.codeTokens = .ok code ∧
      image = encode (.jump (BitVec.ofNat 32 p.codeStart)) ++ p.data.map Prod.snd ++ code := by
  simp only [link] at h
  split at h
  · cases h
  · next hd =>
    split at h
    · next code leadingJump hc hj =>
      rcases emitAddressed_cases .jump p.codeStart with ⟨hl, e⟩ | ⟨-, e⟩ <;> rw [e] at hj <;> cases hj
      cases h
      exact ⟨hd, hl, code, hc, rfl⟩
    · cases h
    · cases h

/-! ## Labels -/

/-- A name that is bound once is found where it is bound. -/
theorem lookupLabel_of_no_duplicate {pre post : List (Text × Nat)} {name : Text} {a : Nat}
    (h : duplicateIn (pre ++ (name, a) :: post) = none) : lookupLabel (pre ++ (name, a) :: post) name = some a := by
  induction pre with
  | nil => simp [lookupLabel]
  | cons l pre ih =>
    obtain ⟨other, b⟩ := l
    simp only [List.cons_append, duplicateIn] at h
    split at h
    · cases h
    · next hn =>
      have hne : other ≠ name := by rintro rfl; apply hn; simp
      have h' := ih h
      unfold lookupLabel at h' ⊢
      rw [List.cons_append, List.find?_cons_of_neg (by simpa)]
      exact h'

/-! ## Lines -/

/-- A line is no possible header if it is ignored or ends in no colon, with and without a trailing comment. -/
theorem mayBeHeader_eq_false_iff (raw : Text) :
    mayBeHeader raw = false ↔ isIgnored raw = true ∨
      ((trim raw).getLast? ≠ some ':' ∧ (trim (beforeComment (trim raw))).getLast? ≠ some ':') := by
  simp only [mayBeHeader, endsInColon]
  cases isIgnored raw <;> simp

end Sys2Proof.Machine
end

