-- ==== Sys2Proof/Laws/Memory.lean ====
section
/-! SUPPORT. The laws of the memory list: read after write, the canonical form, the bounds of the listed cells, and
equality of canonical memories from equality of reads. -/

namespace Sys2Proof.Machine

/-- `lo` is a lower bound of address `a`: none, or strictly below it. -/
def aboveBound (lo : Option Nat) (a : Nat) : Prop := ∀ b, lo = some b → b < a

theorem wfAbove_cons_iff (lo : Option Nat) (a : Nat) (v : Byte) (rest : Memory) :
    Memory.wfAbove lo ((a, v) :: rest) = true ↔
      aboveBound lo a ∧ v ≠ Config.unlistedByte ∧ Memory.wfAbove (some a) rest = true := by
  cases lo <;> simp [Memory.wfAbove, aboveBound, and_assoc]

theorem wfAbove_mono {lo lo' : Option Nat} {m : Memory}
    (h : ∀ a, aboveBound lo a → aboveBound lo' a) (hm : m.wfAbove lo = true) : m.wfAbove lo' = true := by
  cases m with
  | nil => rfl
  | cons c rest =>
    obtain ⟨ha, hv, hr⟩ := (wfAbove_cons_iff lo c.1 c.2 rest).1 hm
    exact (wfAbove_cons_iff lo' c.1 c.2 rest).2 ⟨h _ ha, hv, hr⟩

theorem wfAbove_none {lo : Option Nat} {m : Memory} (hm : m.wfAbove lo = true) : m.wf = true :=
  wfAbove_mono (fun _ _ _ h => nomatch h) hm

/-- An address at or below the bound is not listed. -/
theorem read_of_le_bound {a b : Nat} {m : Memory} (hm : m.wfAbove (some b) = true) (h : a ≤ b) :
    m.read a = Config.unlistedByte := by
  induction m generalizing b with
  | nil => rfl
  | cons c rest ih =>
    obtain ⟨hb, -, hr⟩ := (wfAbove_cons_iff _ c.1 c.2 rest).1 hm
    have hc : b < c.1 := hb b rfl
    have : c.1 ≠ a := by omega
    simp only [Memory.read, if_neg this]
    exact ih hr (by omega)

theorem read_memoryCons (a b : Nat) (v : Byte) (m : Memory) (hm : m.wfAbove (some a) = true) :
    (Memory.cons a v m).read b = if a = b then v else m.read b := by
  unfold Memory.cons
  split
  · next hv =>
    split
    · next h => subst h; rw [hv]; exact read_of_le_bound hm (Nat.le_refl _)
    · rfl
  · rfl

theorem wfAbove_memoryCons {lo : Option Nat} {a : Nat} {v : Byte} {m : Memory} (hlo : aboveBound lo a)
    (hm : m.wfAbove (some a) = true) : (Memory.cons a v m).wfAbove lo = true := by
  unfold Memory.cons
  split
  · refine wfAbove_mono (fun c hc b hb => ?_) hm
    exact Nat.lt_trans (hlo b hb) (hc a rfl)
  · next hv => exact (wfAbove_cons_iff _ _ _ _).2 ⟨hlo, hv, hm⟩

theorem wfAbove_write {lo : Option Nat} {a : Nat} {v : Byte} {m : Memory} (hlo : aboveBound lo a)
    (hm : m.wfAbove lo = true) : (m.write a v).wfAbove lo = true := by
  induction m generalizing lo with
  | nil => exact wfAbove_memoryCons hlo rfl
  | cons c rest ih =>
    obtain ⟨hc, hw, hr⟩ := (wfAbove_cons_iff _ c.1 c.2 rest).1 hm
    simp only [Memory.write]
    split
    · next h =>
      exact wfAbove_memoryCons hlo
        ((wfAbove_cons_iff _ _ _ _).2 ⟨fun b hb => by cases hb; exact h, hw, hr⟩)
    · split
      · next h => subst h; exact wfAbove_memoryCons hc hr
      · next h1 h2 =>
        exact (wfAbove_cons_iff _ _ _ _).2
          ⟨hc, hw, ih (fun b hb => by cases hb; omega) hr⟩

/-- A write keeps the canonical form. -/
theorem wf_write {m : Memory} (a : Nat) (v : Byte) (hm : m.wf = true) : (m.write a v).wf = true :=
  wfAbove_write (fun _ h => nomatch h) hm

theorem read_write_of_wfAbove {lo : Option Nat} {m : Memory} (hm : m.wfAbove lo = true) (a b : Nat) (v : Byte) :
    (m.write a v).read b = if a = b then v else m.read b := by
  induction m generalizing lo with
  | nil => exact read_memoryCons a b v [] rfl
  | cons c rest ih =>
    obtain ⟨hc, hw, hr⟩ := (wfAbove_cons_iff _ c.1 c.2 rest).1 hm
    simp only [Memory.write]
    split
    · next h =>
      exact read_memoryCons a b v _
        ((wfAbove_cons_iff _ _ _ _).2 ⟨fun b hb => by cases hb; exact h, hw, hr⟩)
    · split
      · next h =>
        subst h
        rw [read_memoryCons _ _ _ _ hr]
        simp only [Memory.read]
        split <;> rfl
      · next h1 h2 =>
        simp only [Memory.read, ih hr]
        split
        · next h => rw [if_neg (by omega)]
        · rfl

/-- Everything a write does to what is read: the one cell takes the value, every other keeps its own (R35). -/
theorem read_write {m : Memory} (hm : m.wf = true) (a b : Nat) (v : Byte) :
    (m.write a v).read b = if a = b then v else m.read b :=
  read_write_of_wfAbove hm a b v

theorem read_write_same (m : Memory) (a : Nat) (v : Byte) (hm : m.wf = true) : (m.write a v).read a = v := by
  simp [read_write hm]

theorem read_write_other (m : Memory) {a b : Nat} (v : Byte) (hm : m.wf = true) (h : b ≠ a) :
    (m.write a v).read b = m.read b := by
  rw [read_write hm, if_neg (Ne.symm h)]

/-! ## Bounds of the listed cells -/

theorem below_cons_iff (limit a : Nat) (v : Byte) (rest : Memory) :
    Memory.below limit ((a, v) :: rest) = true ↔ a < limit ∧ rest.below limit = true := by
  simp [Memory.below]

theorem below_memoryCons {limit a : Nat} {v : Byte} {m : Memory} (ha : a < limit) (hm : m.below limit = true) :
    (Memory.cons a v m).below limit = true := by
  unfold Memory.cons
  split
  · exact hm
  · exact (below_cons_iff _ _ _ _).2 ⟨ha, hm⟩

/-- A write at a valid address keeps every listed cell valid. -/
theorem below_write {limit a : Nat} {v : Byte} {m : Memory} (ha : a < limit) (hm : m.below limit = true) :
    (m.write a v).below limit = true := by
  induction m with
  | nil => exact below_memoryCons ha rfl
  | cons c rest ih =>
    obtain ⟨hc, hr⟩ := (below_cons_iff _ c.1 c.2 rest).1 hm
    simp only [Memory.write]
    split
    · exact below_memoryCons ha hm
    · split
      · exact below_memoryCons ha hr
      · exact (below_cons_iff _ _ _ _).2 ⟨hc, ih hr⟩

/-! ## A loaded image -/

theorem wfAbove_ofBytes (base : Nat) (bytes : List Byte) {lo : Option Nat} (hlo : aboveBound lo base) :
    (Memory.ofBytes base bytes).wfAbove lo = true := by
  induction bytes generalizing base lo with
  | nil => rfl
  | cons b rest ih =>
    exact wfAbove_memoryCons hlo (ih (base + 1) (fun c hc => by cases hc; omega))

/-- A loaded image is in canonical form. -/
theorem wf_ofBytes (base : Nat) (bytes : List Byte) : (Memory.ofBytes base bytes).wf = true :=
  wfAbove_ofBytes base bytes (fun _ h => nomatch h)

theorem below_ofBytes (base : Nat) (bytes : List Byte) :
    (Memory.ofBytes base bytes).below (base + bytes.length) = true := by
  induction bytes generalizing base with
  | nil => rfl
  | cons b rest ih =>
    have := ih (base + 1)
    rw [show base + 1 + rest.length = base + (b :: rest).length by simp; omega] at this
    exact below_memoryCons (by simp) this

theorem read_ofBytes (base : Nat) (bytes : List Byte) (k : Nat) :
    (Memory.ofBytes base bytes).read (base + k) = bytes[k]?.getD Config.unlistedByte := by
  induction bytes generalizing base k with
  | nil => simp [Memory.ofBytes, Memory.read]
  | cons b rest ih =>
    rw [Memory.ofBytes, read_memoryCons _ _ _ _ (wfAbove_ofBytes _ _ (fun c hc => by cases hc; omega))]
    cases k with
    | zero => simp
    | succ k =>
      rw [if_neg (by omega), show base + (k + 1) = base + 1 + k by omega, ih]
      simp

/-! ## Several bytes written -/

theorem wf_writeBytes (limit a : Nat) (bytes : List Byte) {m : Memory} (hm : m.wf = true) :
    (m.writeBytes limit a bytes).wf = true := by
  induction bytes generalizing a m with
  | nil => exact hm
  | cons b rest ih =>
    rw [Memory.writeBytes]
    split
    · exact ih _ (wf_write _ _ hm)
    · exact ih _ hm

/-- An address below the first one written keeps its byte. -/
theorem read_writeBytes_of_lt {limit a b : Nat} (bytes : List Byte) {m : Memory} (hm : m.wf = true) (h : b < a) :
    (m.writeBytes limit a bytes).read b = m.read b := by
  induction bytes generalizing a m with
  | nil => rfl
  | cons c rest ih =>
    rw [Memory.writeBytes]
    split
    · rw [ih (wf_write _ _ hm) (by omega), read_write_other _ _ hm (by omega)]
    · exact ih hm (by omega)

/-- Several bytes written are read back, each at its place. -/
theorem read_writeBytes {limit a k : Nat} {b : Byte} {bytes : List Byte} {m : Memory} (hm : m.wf = true)
    (hk : bytes[k]? = some b) (hl : a + k < limit) : (m.writeBytes limit a bytes).read (a + k) = b := by
  induction bytes generalizing a k m with
  | nil => simp at hk
  | cons c rest ih =>
    rw [Memory.writeBytes, if_pos (by omega)]
    cases k with
    | zero =>
      rw [read_writeBytes_of_lt rest (wf_write _ _ hm) (by omega), Nat.add_zero, read_write_same _ _ _ hm]
      simpa using hk
    | succ k =>
      rw [show a + (k + 1) = a + 1 + k by omega]
      exact ih (wf_write _ _ hm) (by simpa using hk) (by omega)

/-! ## Equal reads make equal memories -/

theorem eq_of_wfAbove_of_read_eq {lo : Option Nat} {m n : Memory} (hm : m.wfAbove lo = true)
    (hn : n.wfAbove lo = true) (h : ∀ a, m.read a = n.read a) : m = n := by
  induction m generalizing n lo with
  | nil =>
    cases n with
    | nil => rfl
    | cons d rest =>
      obtain ⟨-, hv, -⟩ := (wfAbove_cons_iff _ d.1 d.2 rest).1 hn
      exact absurd (by simpa [Memory.read] using (h d.1).symm) hv
  | cons c rest ih =>
    obtain ⟨hc, hv, hr⟩ := (wfAbove_cons_iff _ c.1 c.2 rest).1 hm
    cases n with
    | nil => exact absurd (by simpa [Memory.read] using h c.1) hv
    | cons d rest' =>
      obtain ⟨hd, hw, hr'⟩ := (wfAbove_cons_iff _ d.1 d.2 rest').1 hn
      have hcd : c.1 = d.1 := by
        rcases Nat.lt_trichotomy c.1 d.1 with hlt | heq | hgt
        · have h1 := h c.1
          rw [show Memory.read (d :: rest') c.1 = Config.unlistedByte by
            simp only [Memory.read, if_neg (show d.1 ≠ c.1 by omega)]
            exact read_of_le_bound hr' (by omega)] at h1
          exact absurd (by simpa [Memory.read] using h1) hv
        · exact heq
        · have h1 := h d.1
          rw [show Memory.read (c :: rest) d.1 = Config.unlistedByte by
            simp only [Memory.read, if_neg (show c.1 ≠ d.1 by omega)]
            exact read_of_le_bound hr (by omega)] at h1
          exact absurd (by simpa [Memory.read] using h1.symm) hw
      have hvw : c.2 = d.2 := by
        have h1 := h c.1
        simpa [Memory.read, hcd] using h1
      have hrest : rest = rest' := by
        refine ih hr (hcd ▸ hr') fun a => ?_
        by_cases ha : c.1 = a
        · rw [read_of_le_bound hr (by omega), read_of_le_bound hr' (by omega)]
        · have h1 := h a
          simpa [Memory.read, if_neg ha, if_neg (hcd ▸ ha : ¬ d.1 = a)] using h1
      exact congrArg₂ List.cons (Prod.ext hcd hvw) hrest

/-- Two canonical memories that read the same everywhere are the same data. -/
theorem eq_of_wf_of_read_eq {m n : Memory} (hm : m.wf = true) (hn : n.wf = true)
    (h : ∀ a, m.read a = n.read a) : m = n :=
  eq_of_wfAbove_of_read_eq hm hn h

/-- Memory at reset is in canonical form. -/
theorem wf_reset : State.reset.mem.wf = true := rfl

end Sys2Proof.Machine
end

