-- ==== Sys2Proof/Laws/State.lean ====
section
/-! SUPPORT. One lemma per field per update of State, so that no proof unfolds a record update. -/

namespace Sys2Proof.Machine

variable (s : State) (r q : Reg) (v : Byte) (f : ExecutionFault) (code : Byte) (addr : Addr)

/-! ## Reading a register -/

@[simp] theorem getReg_A : s.getReg .A = s.regA := rfl
@[simp] theorem getReg_B : s.getReg .B = s.regB := rfl
@[simp] theorem getReg_C : s.getReg .C = s.regC := rfl
@[simp] theorem leftOperand_eq : s.leftOperand = s.regA := rfl
@[simp] theorem rightOperand_eq : s.rightOperand = s.regB := rfl

/-! ## Writing a register -/

theorem setReg_A : s.setReg .A v = { s with regA := v } := rfl
theorem setReg_B : s.setReg .B v = { s with regB := v } := rfl
theorem setReg_C : s.setReg .C v = { s with regC := v } := rfl
@[simp] theorem setReg_pc : (s.setReg r v).pc = s.pc := by cases r <;> rfl
@[simp] theorem setReg_run : (s.setReg r v).run = s.run := by cases r <;> rfl
@[simp] theorem setReg_memLen : (s.setReg r v).memLen = s.memLen := by cases r <;> rfl
@[simp] theorem setReg_mem : (s.setReg r v).mem = s.mem := by cases r <;> rfl
@[simp] theorem getReg_setReg_same : (s.setReg r v).getReg r = v := by cases r <;> rfl
theorem getReg_setReg_other (h : q ≠ r) : (s.setReg r v).getReg q = s.getReg q := by
  cases r <;> cases q <;> first | rfl | exact absurd rfl h

/-! ## Taking a fault -/

@[simp] theorem takeFault_regA : (s.takeFault f).regA = s.regA := rfl
@[simp] theorem takeFault_regB : (s.takeFault f).regB = s.regB := rfl
@[simp] theorem takeFault_regC : (s.takeFault f).regC = s.regC := rfl
@[simp] theorem takeFault_pc : (s.takeFault f).pc = s.pc := rfl
@[simp] theorem takeFault_run : (s.takeFault f).run = .faulted f := rfl
@[simp] theorem takeFault_memLen : (s.takeFault f).memLen = s.memLen := rfl
@[simp] theorem takeFault_mem : (s.takeFault f).mem = s.mem := rfl

/-! ## Exiting -/

@[simp] theorem exitWith_regA : (s.exitWith code).regA = s.regA := rfl
@[simp] theorem exitWith_regB : (s.exitWith code).regB = s.regB := rfl
@[simp] theorem exitWith_regC : (s.exitWith code).regC = s.regC := rfl
@[simp] theorem exitWith_pc : (s.exitWith code).pc = s.pc := rfl
@[simp] theorem exitWith_run : (s.exitWith code).run = .exited code := rfl
@[simp] theorem exitWith_memLen : (s.exitWith code).memLen = s.memLen := rfl
@[simp] theorem exitWith_mem : (s.exitWith code).mem = s.mem := rfl

/-! ## Jumping -/

@[simp] theorem jumpTo_regA : (s.jumpTo addr).regA = s.regA := rfl
@[simp] theorem jumpTo_regB : (s.jumpTo addr).regB = s.regB := rfl
@[simp] theorem jumpTo_regC : (s.jumpTo addr).regC = s.regC := rfl
@[simp] theorem jumpTo_pc : (s.jumpTo addr).pc = addr := rfl
@[simp] theorem jumpTo_run : (s.jumpTo addr).run = s.run := rfl
@[simp] theorem jumpTo_memLen : (s.jumpTo addr).memLen = s.memLen := rfl
@[simp] theorem jumpTo_mem : (s.jumpTo addr).mem = s.mem := rfl

/-! ## The sequential advance -/

theorem advance_of_lt {len : Nat} (h : s.pc.toNat + len < Config.addressLimit) :
    s.advance len = { s with pc := BitVec.ofNat 32 (s.pc.toNat + len) } := if_pos h
theorem advance_of_ge {len : Nat} (h : ¬ s.pc.toNat + len < Config.addressLimit) :
    s.advance len = s.takeFault (.fetchOutOfBounds (s.pc.toNat + len)) := if_neg h

/-- Everything an advance can do. -/
theorem advance_cases (len : Nat) :
    (s.pc.toNat + len < Config.addressLimit ∧
      s.advance len = { s with pc := BitVec.ofNat 32 (s.pc.toNat + len) }) ∨
    (Config.addressLimit ≤ s.pc.toNat + len ∧
      s.advance len = { s with run := .faulted (.fetchOutOfBounds (s.pc.toNat + len)) }) := by
  by_cases h : s.pc.toNat + len < Config.addressLimit
  · exact .inl ⟨h, advance_of_lt s h⟩
  · exact .inr ⟨Nat.le_of_not_lt h, advance_of_ge s h⟩

@[simp] theorem advance_regA (len : Nat) : (s.advance len).regA = s.regA := by
  unfold State.advance; split <;> rfl
@[simp] theorem advance_regB (len : Nat) : (s.advance len).regB = s.regB := by
  unfold State.advance; split <;> rfl
@[simp] theorem advance_regC (len : Nat) : (s.advance len).regC = s.regC := by
  unfold State.advance; split <;> rfl
@[simp] theorem advance_memLen (len : Nat) : (s.advance len).memLen = s.memLen := by
  unfold State.advance; split <;> rfl
@[simp] theorem advance_mem (len : Nat) : (s.advance len).mem = s.mem := by
  unfold State.advance; split <;> rfl

/-! ## Reset -/

variable (n : Nat) (m : Memory)

@[simp] theorem afterReset_regA : (State.afterReset n m).regA = Config.resetReg := rfl
@[simp] theorem afterReset_regB : (State.afterReset n m).regB = Config.resetReg := rfl
@[simp] theorem afterReset_regC : (State.afterReset n m).regC = Config.resetReg := rfl
@[simp] theorem afterReset_pc : (State.afterReset n m).pc = Config.resetPc := rfl
@[simp] theorem afterReset_run : (State.afterReset n m).run = .running := rfl
@[simp] theorem afterReset_memLen : (State.afterReset n m).memLen = n := rfl
@[simp] theorem afterReset_mem : (State.afterReset n m).mem = m := rfl

end Sys2Proof.Machine
end

