-- ==== Sys2Proof/Laws/Ops.lean ====
section
/-! SUPPORT. For each shared operation one lemma that says everything it can do, for the fetch and for the step. -/

namespace Sys2Proof.Machine

variable (s : State)

/-! ## Bounds and data accesses -/

theorem inBounds_iff (a : Nat) : s.inBounds a = true ↔ a < s.memLen := by simp [State.inBounds]

theorem memRead_cases (addr : Addr) :
    (addr.toNat < s.memLen ∧ s.memRead addr = .ok (s.mem.read addr.toNat)) ∨
    (s.memLen ≤ addr.toNat ∧ s.memRead addr = .error (.dataOutOfBounds addr)) := by
  by_cases h : addr.toNat < s.memLen
  · exact .inl ⟨h, by simp [State.memRead, State.inBounds, h]⟩
  · exact .inr ⟨Nat.le_of_not_lt h, by simp [State.memRead, State.inBounds, h]⟩

theorem memWrite_cases (addr : Addr) (v : Byte) :
    (addr.toNat < s.memLen ∧ s.memWrite addr v = .ok { s with mem := s.mem.write addr.toNat v }) ∨
    (s.memLen ≤ addr.toNat ∧ s.memWrite addr v = .error (.dataOutOfBounds addr)) := by
  by_cases h : addr.toNat < s.memLen
  · exact .inl ⟨h, by simp [State.memWrite, State.inBounds, h]⟩
  · exact .inr ⟨Nat.le_of_not_lt h, by simp [State.memWrite, State.inBounds, h]⟩

/-! ## The instruction shapes -/

/-- Everything a load can do. -/
theorem loadInto_cases (r : Reg) (addr : Addr) (len : Nat) :
    (addr.toNat < s.memLen ∧ s.loadInto r addr len = (s.setReg r (s.mem.read addr.toNat)).advance len) ∨
    (s.memLen ≤ addr.toNat ∧ s.loadInto r addr len = { s with run := .faulted (.dataOutOfBounds addr) }) := by
  rcases memRead_cases s addr with ⟨h, e⟩ | ⟨h, e⟩
  · exact .inl ⟨h, by rw [State.loadInto, e]⟩
  · exact .inr ⟨h, by rw [State.loadInto, e]; rfl⟩

/-- Everything a store can do. -/
theorem storeFrom_cases (r : Reg) (addr : Addr) (len : Nat) :
    (addr.toNat < s.memLen ∧
      s.storeFrom r addr len = ({ s with mem := s.mem.write addr.toNat (s.getReg r) } : State).advance len) ∨
    (s.memLen ≤ addr.toNat ∧ s.storeFrom r addr len = { s with run := .faulted (.dataOutOfBounds addr) }) := by
  rcases memWrite_cases s addr (s.getReg r) with ⟨h, e⟩ | ⟨h, e⟩
  · exact .inl ⟨h, by rw [State.storeFrom, e]⟩
  · exact .inr ⟨h, by rw [State.storeFrom, e]; rfl⟩

theorem aluToC_eq (op : Byte → Byte → Byte) (len : Nat) :
    s.aluToC op len = ({ s with regC := op s.regA s.regB } : State).advance len := rfl

/-- Everything a conditional jump can do. -/
theorem jumpIf_cases (taken : Bool) (addr : Addr) (len : Nat) :
    (taken = true ∧ s.jumpIf taken addr len = { s with pc := addr }) ∨
    (taken = false ∧ s.jumpIf taken addr len = s.advance len) := by
  cases taken
  · exact .inr ⟨rfl, rfl⟩
  · exact .inl ⟨rfl, rfl⟩

/-! ## The ALU's results as natural numbers -/

theorem narrow_natCast (n : Nat) : narrow (n : Int) = BitVec.ofNat 8 (n % 256) := by
  rw [narrow]
  congr 1

theorem aluAdd_eq (a b : Byte) : aluAdd a b = BitVec.ofNat 8 ((a.toNat + b.toNat) % 256) := by
  rw [aluAdd, ← Int.natCast_add, narrow_natCast]

theorem aluMultiply_eq (a b : Byte) : aluMultiply a b = BitVec.ofNat 8 ((a.toNat * b.toNat) % 256) := by
  rw [aluMultiply, ← Int.natCast_mul, narrow_natCast]

theorem aluSubtract_eq (a b : Byte) : aluSubtract a b = BitVec.ofNat 8 ((a.toNat + 256 - b.toNat) % 256) := by
  have hb := b.isLt
  rw [aluSubtract, narrow]
  congr 1
  omega

/-! ## The conditions of the jumps -/

theorem conditionEq_iff (a b : Byte) : conditionEq a b = true ↔ a = b := by
  simp [conditionEq, BitVec.toNat_inj]

theorem conditionNeq_iff (a b : Byte) : conditionNeq a b = true ↔ a ≠ b := by
  simp [conditionNeq, BitVec.toNat_inj]

theorem conditionGt_iff (a b : Byte) : conditionGt a b = true ↔ b.toNat < a.toNat := by
  simp [conditionGt]

theorem conditionLt_iff (a b : Byte) : conditionLt a b = true ↔ a.toNat < b.toNat := by
  simp [conditionLt]

/-! ## The fetch -/

theorem bytesFrom_succ (a n : Nat) :
    s.bytesFrom a (n + 1) = if s.inBounds a then s.mem.read a :: s.bytesFrom (a + 1) n else [] := rfl

theorem length_bytesFrom (a n : Nat) : (s.bytesFrom a n).length = min n (s.memLen - a) := by
  induction n generalizing a with
  | zero => simp [State.bytesFrom]
  | succ n ih =>
    rw [bytesFrom_succ]
    by_cases h : a < s.memLen
    · rw [if_pos ((inBounds_iff s a).2 h), List.length_cons, ih]; omega
    · rw [if_neg (by simpa [State.inBounds] using h)]; simp; omega

theorem getElem?_bytesFrom (a n k : Nat) :
    (s.bytesFrom a n)[k]? = if k < n ∧ a + k < s.memLen then some (s.mem.read (a + k)) else none := by
  induction n generalizing a k with
  | zero => simp [State.bytesFrom]
  | succ n ih =>
    rw [bytesFrom_succ]
    by_cases h : a < s.memLen
    · rw [if_pos ((inBounds_iff s a).2 h)]
      cases k with
      | zero => simp [h]
      | succ k =>
        rw [List.getElem?_cons_succ, ih, show a + 1 + k = a + (k + 1) by omega]
        simp
    · rw [if_neg (by simpa [State.inBounds] using h), if_neg (by omega)]
      rfl

/-- At a valid `pc` the window begins with the byte at `pc`. -/
theorem fetchWindow_of_lt (h : s.pc.toNat < s.memLen) :
    s.fetchWindow = s.mem.read s.pc.toNat :: s.bytesFrom (s.pc.toNat + 1) 4 := by
  simp [State.fetchWindow, Config.longestInstruction, bytesFrom_succ s s.pc.toNat 4, State.inBounds, h]

/-- At an invalid `pc` the window is empty. -/
theorem fetchWindow_of_ge (h : s.memLen ≤ s.pc.toNat) : s.fetchWindow = [] := by
  simp [State.fetchWindow, Config.longestInstruction, bytesFrom_succ s s.pc.toNat 4, State.inBounds,
    Nat.not_lt.2 h]

theorem length_fetchWindow : s.fetchWindow.length = min 5 (s.memLen - s.pc.toNat) :=
  length_bytesFrom s _ _

/-- Everything the fetch can do, by what the decoder says of the window. -/
theorem fetchInstr_cases :
    (∃ i rest, decode s.fetchWindow = .instr i rest ∧ s.fetchInstr = .ok i) ∨
    (∃ b, decode s.fetchWindow = .illegal b ∧ s.fetchInstr = .error (.illegalOpcode s.pc b)) ∨
    (∃ k, decode s.fetchWindow = .truncated k ∧ s.fetchInstr = .error (.fetchOutOfBounds (s.pc.toNat + k))) := by
  cases h : decode s.fetchWindow with
  | instr i rest => exact .inl ⟨i, rest, rfl, by simp [State.fetchInstr, h]⟩
  | illegal b => exact .inr (.inl ⟨b, rfl, by simp [State.fetchInstr, h]⟩)
  | truncated k => exact .inr (.inr ⟨k, rfl, by simp [State.fetchInstr, h]⟩)

/-! ## The step -/

/-- Everything a step can do: a running core runs the fetched instruction or takes the fetch's fault; a stopped core
stays as it is. -/
theorem step_cases :
    (s.run = .running ∧ ∃ i, s.fetchInstr = .ok i ∧ step s = exec i s) ∨
    (s.run = .running ∧ ∃ f, s.fetchInstr = .error f ∧ step s = .next { s with run := .faulted f }) ∨
    (s.run ≠ .running ∧ step s = .next s) := by
  cases h : s.run with
  | running =>
    cases hf : s.fetchInstr with
    | ok i => exact .inl ⟨rfl, i, rfl, by simp [step, h, hf]⟩
    | error f => exact .inr (.inl ⟨rfl, f, rfl, by simp [step, h, hf, State.takeFault]⟩)
  | exited c => exact .inr (.inr ⟨by simp, by simp [step, h]⟩)
  | faulted f => exact .inr (.inr ⟨by simp, by simp [step, h]⟩)

/-! ## Runs -/

@[simp] theorem runSteps_zero : runSteps 0 s = .next s := rfl

theorem runSteps_succ (n : Nat) :
    runSteps (n + 1) s =
      match step s with
      | .next t => runSteps n t
      | .fault r => .fault r
      | .refused r => .refused r := by
  cases h : step s <;> simp [runSteps, Host.Core.run, core, h]

/-! ## Bytes held in memory -/

theorem holdsAt_cons_iff (a : Nat) (b : Byte) (rest : List Byte) :
    s.holdsAt a (b :: rest) = true ↔ a < s.memLen ∧ s.mem.read a = b ∧ s.holdsAt (a + 1) rest = true := by
  simp [State.holdsAt, State.inBounds, and_assoc]

/-- Which bytes are held depends on memory and `MEMLEN` alone. -/
theorem holdsAt_congr {s t : State} (hm : t.mem = s.mem) (hl : t.memLen = s.memLen) (a : Nat) (bytes : List Byte) :
    t.holdsAt a bytes = s.holdsAt a bytes := by
  induction bytes generalizing a with
  | nil => rfl
  | cons b rest ih => simp [State.holdsAt, State.inBounds, hm, hl, ih]

/-- Bytes held in memory are the beginning of what is read there. -/
theorem bytesFrom_of_holdsAt {a n : Nat} {bytes : List Byte} (h : s.holdsAt a bytes = true)
    (hn : bytes.length ≤ n) : s.bytesFrom a n = bytes ++ s.bytesFrom (a + bytes.length) (n - bytes.length) := by
  induction bytes generalizing a n with
  | nil => simp
  | cons b rest ih =>
    obtain ⟨ha, hb, hr⟩ := (holdsAt_cons_iff s a b rest).1 h
    cases n with
    | zero => simp at hn
    | succ n =>
      have hn' : rest.length ≤ n := by simpa using hn
      rw [bytesFrom_succ, if_pos ((inBounds_iff s a).2 ha), hb, ih hr hn']
      rw [show a + 1 + rest.length = a + (b :: rest).length by simp; omega,
        show n - rest.length = n + 1 - (b :: rest).length by simp]
      rfl

end Sys2Proof.Machine
end

