-- ==== Sys2Proof/Laws/Exec.lean ====
section
/-! SUPPORT. Everything `exec` can do, in seven shapes; `exec` is total; the two named families of loads and stores. -/

namespace Sys2Proof.Machine

variable (s : State)

theorem exec_loadOf (addr : Addr) (r : Reg) : exec (Instr.loadOf addr r) s = .next (s.loadInto r addr 5) := by
  cases r <;> rfl

theorem exec_storeOf (addr : Addr) (r : Reg) : exec (Instr.storeOf addr r) s = .next (s.storeFrom r addr 5) := by
  cases r <;> rfl

/-- Everything an instruction's meaning can be. -/
theorem exec_cases (i : Instr) :
    (i = .nop ∧ exec i s = .next (s.advance 1)) ∨
    (∃ code, i = .exit code ∧ exec i s = .next { s with run := .exited code }) ∨
    (∃ op, (i = .add ∧ op = aluAdd ∨ i = .subtract ∧ op = aluSubtract ∨ i = .multiply ∧ op = aluMultiply) ∧
      exec i s = .next (({ s with regC := op s.regA s.regB } : State).advance 1)) ∨
    (∃ r addr, i = Instr.loadOf addr r ∧ exec i s = .next (s.loadInto r addr 5)) ∨
    (∃ r addr, i = Instr.storeOf addr r ∧ exec i s = .next (s.storeFrom r addr 5)) ∨
    (∃ addr, i = .jump addr ∧ exec i s = .next { s with pc := addr }) ∨
    (∃ addr condition,
      (i = .jeq addr ∧ condition = conditionEq ∨ i = .jneq addr ∧ condition = conditionNeq ∨
        i = .jgt addr ∧ condition = conditionGt ∨ i = .jlt addr ∧ condition = conditionLt) ∧
      exec i s = .next (s.jumpIf (condition s.regA s.regB) addr 5)) := by
  cases i with
  | nop => exact .inl ⟨rfl, rfl⟩
  | exit code => exact .inr (.inl ⟨code, rfl, rfl⟩)
  | add => exact .inr (.inr (.inl ⟨aluAdd, .inl ⟨rfl, rfl⟩, rfl⟩))
  | subtract => exact .inr (.inr (.inl ⟨aluSubtract, .inr (.inl ⟨rfl, rfl⟩), rfl⟩))
  | multiply => exact .inr (.inr (.inl ⟨aluMultiply, .inr (.inr ⟨rfl, rfl⟩), rfl⟩))
  | loadA addr => exact .inr (.inr (.inr (.inl ⟨.A, addr, rfl, rfl⟩)))
  | loadB addr => exact .inr (.inr (.inr (.inl ⟨.B, addr, rfl, rfl⟩)))
  | loadC addr => exact .inr (.inr (.inr (.inl ⟨.C, addr, rfl, rfl⟩)))
  | storeA addr => exact .inr (.inr (.inr (.inr (.inl ⟨.A, addr, rfl, rfl⟩))))
  | storeB addr => exact .inr (.inr (.inr (.inr (.inl ⟨.B, addr, rfl, rfl⟩))))
  | storeC addr => exact .inr (.inr (.inr (.inr (.inl ⟨.C, addr, rfl, rfl⟩))))
  | jump addr => exact .inr (.inr (.inr (.inr (.inr (.inl ⟨addr, rfl, rfl⟩)))))
  | jeq addr => exact .inr (.inr (.inr (.inr (.inr (.inr ⟨addr, conditionEq, .inl ⟨rfl, rfl⟩, rfl⟩)))))
  | jneq addr => exact .inr (.inr (.inr (.inr (.inr (.inr ⟨addr, conditionNeq, .inr (.inl ⟨rfl, rfl⟩), rfl⟩)))))
  | jgt addr =>
    exact .inr (.inr (.inr (.inr (.inr (.inr ⟨addr, conditionGt, .inr (.inr (.inl ⟨rfl, rfl⟩)), rfl⟩)))))
  | jlt addr =>
    exact .inr (.inr (.inr (.inr (.inr (.inr ⟨addr, conditionLt, .inr (.inr (.inr ⟨rfl, rfl⟩)), rfl⟩)))))

end Sys2Proof.Machine
end

