-- ==== Sys2Proof/Laws/PerInstr.lean ====
section
/-! SUPPORT. Facts proved per instruction: the encoded length is the length the opcode map gives the opcode (R50,
R59). -/

namespace Sys2Proof.Laws.EncodedLength

/-- The encoder writes as many bytes as the opcode says. -/
def Statement (i : Instr) : Prop := (encode i).length = i.opcode.length

theorem nop : Statement .nop := rfl
theorem exit (code : Byte) : Statement (.exit code) := rfl
theorem add : Statement .add := rfl
theorem subtract : Statement .subtract := rfl
theorem multiply : Statement .multiply := rfl
theorem loadA (addr : Addr) : Statement (.loadA addr) := rfl
theorem loadB (addr : Addr) : Statement (.loadB addr) := rfl
theorem loadC (addr : Addr) : Statement (.loadC addr) := rfl
theorem storeA (addr : Addr) : Statement (.storeA addr) := rfl
theorem storeB (addr : Addr) : Statement (.storeB addr) := rfl
theorem storeC (addr : Addr) : Statement (.storeC addr) := rfl
theorem jump (addr : Addr) : Statement (.jump addr) := rfl
theorem jeq (addr : Addr) : Statement (.jeq addr) := rfl
theorem jneq (addr : Addr) : Statement (.jneq addr) := rfl
theorem jgt (addr : Addr) : Statement (.jgt addr) := rfl
theorem jlt (addr : Addr) : Statement (.jlt addr) := rfl

end Sys2Proof.Laws.EncodedLength
end

