-- ==== Sys2Proof/Tests/Slice0.lean ====
section
/-! SUPPORT. Tests, each of one step or one call, with the expected result taken from the spec (the rule or the section of
95_test_vectors.md named in its comment), and for every statement with hypotheses a witness that meets them all. -/

namespace Sys2Proof.Tests

open Sys2Proof.Machine

/-- A running core over the image `bytes`. -/
def coreAt (bytes : List Byte) (pc : Addr) (a b c : Byte) : State :=
  { regA := a, regB := b, regC := c, pc := pc, run := .running, memLen := bytes.length,
    mem := Memory.ofBytes 0 bytes }

/-- A running core over `2^32` bytes, all zero but for `bytes` from `pc` on. -/
def fullCoreAt (bytes : List Byte) (pc : Addr) (a b c : Byte) : State :=
  { coreAt [] pc a b c with memLen := 4294967296, mem := Memory.ofBytes pc.toNat bytes }

/-- The next state of an outcome. -/
def nextOf (o : Host.Outcome State Fault Refusal) : Option State :=
  match o with
  | .next s => some s
  | .fault _ => none
  | .refused _ => none

/-- The state after one step. -/
def stepped (s : State) : Option State := nextOf (step s)

/-! ## WellFormed: an ill-formed term for each check -/

/-- R57: 0x10 is not an opcode byte, 0x0F is. -/
theorem test_opcodeByte_refused : opcodeByteWellFormed 0x10 = false ∧ opcodeByteWellFormed 0x0F = true := by decide

/-- R166: one byte more than the address space is refused. -/
theorem test_image_refused : imageWellFormed (List.replicate 4294967297 0) = false := by
  rw [imageWellFormed, List.length_replicate]; decide

/-- R58: an instruction has no field with reserved values. -/
theorem test_instr_wellFormed : (Instr.exit 0xFF).wellFormed = true ∧ (Instr.jlt 0xFFFFFFFF).wellFormed = true := by
  decide

/-- The canonical form refuses falling and repeated addresses and a listed default. -/
theorem test_memory_wf_refuses :
    Memory.wf [(2, 1), (1, 1)] = false ∧ Memory.wf [(1, 1), (1, 2)] = false ∧ Memory.wf [(1, 0)] = false ∧
      Memory.wf [(1, 1), (2, 1)] = true := by decide

/-- A data fault with no load or store at `pc`, and a fetch fault that is not at the first address out of bounds, are
refused by the invariant. -/
theorem test_inv_refuses_stop :
    ¬ ({ coreAt [0x00] 0 0 0 0 with run := .faulted (.dataOutOfBounds 1) } : State).Inv ∧
    ¬ ({ coreAt [0x00] 0 0 0 0 with run := .faulted (.fetchOutOfBounds 2) } : State).Inv := by decide

/-- A cell at or beyond `MEMLEN`, a `MEMLEN` beyond `2^32` and an unexplained exit are refused by the invariant. -/
theorem test_inv_refuses :
    ¬ ({ coreAt [0] 0 0 0 0 with mem := [(1, 1)] } : State).Inv ∧
    ¬ ({ coreAt [0] 0 0 0 0 with memLen := 4294967297 } : State).Inv ∧
    ¬ ({ coreAt [0x01, 7] 0 0 0 0 with run := .exited 8 } : State).Inv := by decide

/-! ## Decoding, every constructor, bytes written out from R51 to R53 and R56 (95_test_vectors.md section 2.1) -/

theorem test_decode_nop : decode [0x00] = .instr .nop [] := by decide
theorem test_decode_exit : decode [0x01, 0x07] = .instr (.exit 7) [] := by decide
theorem test_decode_add : decode [0x02] = .instr .add [] := by decide
theorem test_decode_subtract : decode [0x03] = .instr .subtract [] := by decide
theorem test_decode_multiply : decode [0x04] = .instr .multiply [] := by decide
theorem test_decode_loadA : decode [0x05, 0, 0, 0, 5] = .instr (.loadA 5) [] := by decide
theorem test_decode_loadB : decode [0x06, 0, 0, 1, 0] = .instr (.loadB 256) [] := by decide
theorem test_decode_loadC : decode [0x07, 0, 1, 0, 0] = .instr (.loadC 65536) [] := by decide
theorem test_decode_storeA : decode [0x08, 1, 0, 0, 0] = .instr (.storeA 16777216) [] := by decide
theorem test_decode_storeB : decode [0x09, 0x12, 0x34, 0x56, 0x78] = .instr (.storeB 305419896) [] := by decide
theorem test_decode_storeC : decode [0x0A, 0xFF, 0xFF, 0xFF, 0xFF] = .instr (.storeC 4294967295) [] := by decide
theorem test_decode_jump : decode [0x0B, 0, 0, 0, 0] = .instr (.jump 0) [] := by decide
theorem test_decode_jeq : decode [0x0C, 0, 0, 0, 0x16] = .instr (.jeq 22) [] := by decide
theorem test_decode_jneq : decode [0x0D, 0, 0, 0, 0x0B] = .instr (.jneq 11) [] := by decide
theorem test_decode_jgt : decode [0x0E, 0, 0, 0, 0x21] = .instr (.jgt 33) [] := by decide
theorem test_decode_jlt : decode [0x0F, 0x80, 0, 0, 0] = .instr (.jlt 2147483648) [] := by decide

/-- The illegal bytes of section 2.1. -/
theorem test_decode_illegal :
    ([0x10, 0x11, 0x20, 0x7F, 0x80, 0x85, 0xFE, 0xFF] : List Byte).all
      (fun b => decode [b, 0, 0, 0, 0] == .illegal b) = true := by decide

/-- R93: bytes 0 to 2 are there, byte 3 is missing. -/
theorem test_decode_truncated : decode [0x05, 0, 0] = .truncated 3 ∧ decode [0x01] = .truncated 1 := by decide

/-- The table word has byte 0 in bits 7..0, so the operand bytes follow above it. -/
theorem test_tableWord :
    decodeTableWord 40 0x7856341209 = some (.storeB 0x12345678) ∧ decodeTableWord 16 0x0701 = some (.exit 7) ∧
      decodeTableWord 8 0x05 = some (.loadA 0) ∧ decodeTableWord 8 0x10 = none := by decide

/-- A placed word is what the next step runs, from reset (Log 8). -/
theorem test_withFetchWord :
    (stepped (State.reset.withFetchWord 16 0x2A01)).map State.run = some (.exited 42) ∧
    (stepped (State.reset.withFetchWord 40 0x040000000B)).map State.pc = some 4 := by decide

/-! ## Instructions -/

/-- R100 and section 2.2: a Nop in the last byte of memory leaves `pc = MEMLEN`. -/
theorem test_nop : stepped (coreAt [0x01, 0x00] 1 1 2 3) = some { coreAt [0x01, 0x00] 1 1 2 3 with pc := 2 } := by decide

/-- Section 1.5: exit code 255, `pc` kept. -/
theorem test_exit : stepped (coreAt [0x01, 0xFF] 0 1 2 3) =
    some { coreAt [0x01, 0xFF] 0 1 2 3 with run := .exited 255 } := by decide

/-- Section 2.2: an Exit without its code byte faults and does not exit. -/
theorem test_exit_truncated : (stepped (coreAt [0x01] 0 0 0 0)).map State.run =
    some (.faulted (.fetchOutOfBounds 1)) := by decide

/-- Section 2.3, row 0xC8 0x64. -/
theorem test_add : stepped (coreAt [0x02] 0 0xC8 0x64 0xEE) =
    some { coreAt [0x02] 0 0xC8 0x64 0xEE with regC := 0x2C, pc := 1 } := by decide

/-- Section 2.3, row 0x05 0x0A. -/
theorem test_subtract : stepped (coreAt [0x03] 0 0x05 0x0A 0xEE) =
    some { coreAt [0x03] 0 0x05 0x0A 0xEE with regC := 0xFB, pc := 1 } := by decide

/-- Section 2.3, row 0xC8 0x64. -/
theorem test_multiply : stepped (coreAt [0x04] 0 0xC8 0x64 0xEE) =
    some { coreAt [0x04] 0 0xC8 0x64 0xEE with regC := 0x20, pc := 1 } := by decide

/-- The image of section 2.4 with opcode byte `op` and operand `addr`. -/
def loadCore (op addr : Byte) : State := coreAt [op, 0, 0, 0, addr, 0x01, 0x00, 0x99] 0 0 0 0

/-- Section 2.4, row 1. -/
theorem test_loadA : stepped (loadCore 0x05 7) = some { loadCore 0x05 7 with regA := 0x99, pc := 5 } := by decide

/-- Section 2.4, row 2. -/
theorem test_loadB : stepped (loadCore 0x06 7) = some { loadCore 0x06 7 with regB := 0x99, pc := 5 } := by decide

/-- Section 2.4, row 3. -/
theorem test_loadC : stepped (loadCore 0x07 7) = some { loadCore 0x07 7 with regC := 0x99, pc := 5 } := by decide

/-- Section 2.4, row 6: the first address beyond memory. -/
theorem test_loadA_outOfBounds : stepped (loadCore 0x05 8) =
    some { loadCore 0x05 8 with run := .faulted (.dataOutOfBounds 8) } := by decide

/-- The start state of section 2.5 with opcode byte `op` and operand `addr`. -/
def storeCore (op addr : Byte) : State := coreAt [op, 0, 0, 0, addr, 0x01, 0x00, 0x99] 0 0x11 0x22 0x33

/-- Section 2.5, row 1. -/
theorem test_storeA : (stepped (storeCore 0x08 7)).map State.mem =
    some (Memory.ofBytes 0 [0x08, 0, 0, 0, 7, 0x01, 0x00, 0x11]) := by decide

/-- Section 2.5, row 2. -/
theorem test_storeB : (stepped (storeCore 0x09 7)).map State.mem =
    some (Memory.ofBytes 0 [0x09, 0, 0, 0, 7, 0x01, 0x00, 0x22]) := by decide

/-- Section 2.5, row 3. -/
theorem test_storeC : (stepped (storeCore 0x0A 7)).map State.mem =
    some (Memory.ofBytes 0 [0x0A, 0, 0, 0, 7, 0x01, 0x00, 0x33]) := by decide

/-- Section 2.5, last row of the table: nothing is written. -/
theorem test_storeA_outOfBounds : stepped (storeCore 0x08 8) =
    some { storeCore 0x08 8 with run := .faulted (.dataOutOfBounds 8) } := by decide

/-- Section 2.5, last vector: a store over its own opcode byte, of a zero, which leaves the list of cells. -/
theorem test_storeA_ownByte : stepped (coreAt [0x08, 0, 0, 0, 0, 0x01, 0x00] 0 0 0 0) =
    some { coreAt [0x00, 0, 0, 0, 0, 0x01, 0x00] 0 0 0 0 with pc := 5 } := by decide

/-- `pc` after `op 00 00 00 14` at address 8 (section 2.6). -/
def jumpPc (op a b : Byte) : Option Addr :=
  (stepped (coreAt ([0, 0, 0, 0, 0, 0, 0, 0, op, 0, 0, 0, 0x14] ++ List.replicate 8 0) 8 a b 0)).map State.pc

/-- Section 2.6: Jump ignores the registers. -/
theorem test_jump : jumpPc 0x0B 0x03 0x04 = some 20 := by decide

/-- Section 2.6, rows 2 and 3. -/
theorem test_jeq : jumpPc 0x0C 0x03 0x03 = some 20 ∧ jumpPc 0x0C 0x03 0x04 = some 13 := by decide

/-- Section 2.6, rows 2 and 3. -/
theorem test_jneq : jumpPc 0x0D 0x03 0x03 = some 13 ∧ jumpPc 0x0D 0x03 0x04 = some 20 := by decide

/-- Section 2.6, rows 5, 6 and 9: unsigned. -/
theorem test_jgt : jumpPc 0x0E 0x80 0x7F = some 20 ∧ jumpPc 0x0E 0x7F 0x80 = some 13 ∧
    jumpPc 0x0E 0xFF 0xFF = some 13 := by decide

/-- Section 2.6, rows 5, 6 and 9: unsigned. -/
theorem test_jlt : jumpPc 0x0F 0x80 0x7F = some 13 ∧ jumpPc 0x0F 0x7F 0x80 = some 20 ∧
    jumpPc 0x0F 0xFF 0xFF = some 13 := by decide

/-! ## Faults, the advance past the top, the host, the pseudocode, the assembler -/

/-- Section 2.7: an illegal byte in the last cell is IllegalOpcode, not a missing operand. -/
theorem test_illegal : (stepped (coreAt [0, 0, 0x85] 2 0 0 0)).map State.run =
    some (.faulted (.illegalOpcode 2 0x85)) := by decide

/-- Section 2.7, row 1: the empty memory, which is `State.reset`. -/
theorem test_empty : stepped State.reset = some { State.reset with run := .faulted (.fetchOutOfBounds 0) } := by decide

/-- R155: a store in the last five bytes of a full memory writes, then the advance faults. -/
theorem test_advance_past_top :
    stepped (fullCoreAt [0x08, 0, 0, 0, 7] 0xFFFFFFFB 0x11 0 0) =
      some { fullCoreAt [0x08, 0, 0, 0, 7] 0xFFFFFFFB 0x11 0 0 with
        mem := (7, 0x11) :: Memory.ofBytes 4294967291 [0x08, 0, 0, 0, 7]
        run := .faulted (.fetchOutOfBounds 4294967296) } := by decide

/-- R43: five fetches ascending, then the one write. -/
theorem test_accesses : ((storeCore 0x08 7).stepAccesses.map Access.address) = [0, 1, 2, 3, 4, 7] ∧
    ((storeCore 0x08 7).stepAccesses.map Access.memWePort) = [0, 0, 0, 0, 0, 1] := by decide

/-- The pseudocode on a load, the source's scenario 1 step 2. -/
theorem test_pseudocode : pseudoStep (loadCore 0x05 7) = { loadCore 0x05 7 with regA := 0x99, pc := 5 } := by decide

/-- R182: the host reads a stopped core's memory, and no further than `MEMLEN`. -/
theorem test_hostRead :
    (hostReadCell { loadCore 0x05 7 with run := .exited 0 } 7).toOption = some 0x99 ∧
    (hostReadCell { loadCore 0x05 7 with run := .exited 0 } 8).toOption = none ∧
    (hostReadCell (loadCore 0x05 7) 7).toOption = none := by decide

/-- 35_assembler.md R89: the image of the source's scenario 1. -/
theorem test_assemble :
    (assemble ["data:".toList, "u8 x 10".toList, "u8 y 5".toList, "u8 z 0".toList, "main:".toList, "LoadA x".toList,
      "LoadB y".toList, "Add".toList, "StoreC z".toList, "Exit 0".toList]).toOption =
    some [0x0B, 0, 0, 0, 8, 0x0A, 5, 0, 0x05, 0, 0, 0, 5, 0x06, 0, 0, 0, 6, 0x02, 0x0A, 0, 0, 0, 7, 0x01, 0] := by
  decide

/-- The error of an assembly. -/
def asmError (lines : List String) : Option AsmError :=
  match assemble (lines.map String.toList) with
  | .ok _ => none
  | .error e => some e

/-- R80: no header, whatever the lines are; N27: a line before the first header. -/
theorem test_assemble_headers :
    asmError ["Exit 0"] = some .noSectionHeader ∧ asmError ["Foo"] = some .noSectionHeader ∧
    asmError ["Foo", "main:"] = some (.unspecified 27 "Foo".toList) ∧
    asmError ["// c", "data:", "main:", "Foo"] = some (.unknownMnemonic "Foo".toList) := by decide

/-- N23: a trailing comment, glued or not, after an instruction or a header; R79: an error under every reading. -/
theorem test_assemble_trailing_comment :
    asmError ["d:", "m:", "Add//c"] = some (.unspecified 23 "Add//c".toList) ∧
    asmError ["d:", "m:", "Exit 0//c"] = some (.unspecified 23 "Exit 0//c".toList) ∧
    asmError ["d:", "m: // c"] = some (.unspecified 23 "m: // c".toList) ∧
    asmError ["d:", "m:", "Foo // c"] = some (.unknownMnemonic "Foo // c".toList) := by decide

/-- R84: the label and the referencing line. -/
theorem test_assemble_unresolved :
    asmError ["d:", "m:", " LoadA x "] = some (.unresolvedLabel "x".toList .loadA "LoadA x".toList) := by decide

/-- R88 and Log 20: `2^32 - 1` is an address, `2^32` is none and is not encoded as 0. -/
theorem test_emitAddressed :
    (emitAddressed .jump 4294967295).toOption = some [0x0B, 0xFF, 0xFF, 0xFF, 0xFF] ∧
    (emitAddressed .jump 4294967296).toOption = none := by decide

/-! ## Witnesses: for each statement with hypotheses, states and operands that meet them, at the ends of each range -/

theorem witness_EncodeInvertsDecode : decode [0x0F, 0xFF, 0xFF, 0xFF, 0xFF, 7] = .instr (.jlt 0xFFFFFFFF) [7] := by decide

theorem witness_OpcodeMapIsBijection :
    opcodeOf 0x00 = some .nop ∧ opcodeOf 0x0F = some .jlt ∧ 0x0F < (0x10 : Byte).toNat ∧ 0x0F < (0xFF : Byte).toNat := by
  decide

theorem witness_OpcodeByteTellsLength :
    decode (0x01 :: [0xFF, 3]) = .instr (.exit 0xFF) [3] ∧ opcodeOf 0x10 = none ∧ opcodeOf 0xFF = none := by decide

/-- The operand ends in the last byte of memory. -/
theorem witness_AddressOperandIsBigEndian :
    let s := coreAt [0x09, 0x12, 0x34, 0x56, 0x78] 0 0 0 0
    Opcode.storeB.format = .f5 ∧ s.mem.read s.pc.toNat = Opcode.storeB.byte ∧ s.pc.toNat + 4 < s.memLen := by decide

theorem witness_ExitImmediateIsNextByte :
    let s := coreAt [0x01, 0xFF] 0 0 0 0
    s.run = .running ∧ s.mem.read s.pc.toNat = Opcode.exit.byte ∧ s.pc.toNat + 1 < s.memLen := by decide

theorem witness_StepRunsDecodedInstruction :
    let s := coreAt [0x08, 0, 0, 0, 0, 0x02] 0 0 0 0
    s.run = .running ∧ decode s.fetchWindow = .instr (.storeA 0) [] := by decide

theorem witness_StepRunsInstructionInMemory :
    let s := coreAt [0, 0x0E, 0, 0, 1, 0] 1 0 0 0
    s.run = .running ∧ s.holdsAt s.pc.toNat (encode (.jgt 256)) = true := by decide

/-- The highest address at which the longest instruction fits, and address 0. -/
theorem witness_StepRunsPlacedWord :
    let s : State := { State.reset with pc := 0xFFFFFFFB }
    s.mem.wf = true ∧ s.pc.toNat + 5 ≤ 4294967296 ∧ State.reset.pc.toNat + 5 ≤ 4294967296 ∧
      decodeTableWord 16 0x0701 = some (.exit 7) := by decide

/-- `pc = MEMLEN`, and `pc = MEMLEN - 1`. -/
theorem witness_OpcodeFetchIsBoundsChecked :
    let s := coreAt [0, 0] 2 0 0 0
    let t := coreAt [0, 0] 1 0 0 0
    s.run = .running ∧ s.memLen ≤ s.pc.toNat ∧ t.run = .running ∧ t.pc.toNat < t.memLen := by decide

/-- The lowest and the highest illegal byte, each in the last cell. -/
theorem witness_IllegalOpcodeFaults :
    let s := coreAt [0x10] 0 0 0 0
    let t := coreAt [0xFF] 0 0 0 0
    s.run = .running ∧ s.pc.toNat < s.memLen ∧ 0x10 ≤ (s.mem.read s.pc.toNat).toNat ∧
      t.run = .running ∧ t.pc.toNat < t.memLen ∧ 0x10 ≤ (t.mem.read t.pc.toNat).toNat := by decide

/-- The last operand byte is missing, and all of them are. -/
theorem witness_TruncatedInstructionFaults :
    let s := coreAt [0x05, 0, 0, 0] 0 0 0 0
    let t := coreAt [0x0F] 0 0 0 0
    s.run = .running ∧ s.pc.toNat < s.memLen ∧ opcodeOf (s.mem.read s.pc.toNat) = some .loadA ∧
      s.memLen < s.pc.toNat + Opcode.loadA.length ∧ t.run = .running ∧ t.pc.toNat < t.memLen ∧
      opcodeOf (t.mem.read t.pc.toNat) = some .jlt ∧ t.memLen < t.pc.toNat + Opcode.jlt.length := by decide

theorem witness_StepRefinesPseudocode : State.reset.run = .running := by decide

/-- The highest address from which a one-byte instruction advances. -/
theorem witness_NopCompletes : (fullCoreAt [0x00] 0xFFFFFFFE 0 0 0).pc.toNat + 1 < 4294967296 := by decide

theorem witness_ExitCompletes :
    let s := coreAt [0x01, 0x09] 0 0 0 0
    s.run = .running ∧ s.holdsAt s.pc.toNat [0x01, 9] = true := by decide

theorem witness_ArithmeticCompletes : (fullCoreAt [0x02] 0xFFFFFFFE 1 2 3).pc.toNat + 1 < 4294967296 := by decide

/-- The last valid address, at the highest `pc` from which a load advances, and the first invalid one. -/
theorem witness_LoadsReadOneByte :
    let s : State := { fullCoreAt [] 0xFFFFFFFA 0 0 0 with memLen := 4294967295 }
    (0xFFFFFFFE : Addr).toNat < s.memLen ∧ s.pc.toNat + 5 < 4294967296 ∧ s.memLen ≤ (0xFFFFFFFF : Addr).toNat := by decide

/-- As for loads, on states that meet the invariant. -/
theorem witness_StoresWriteOneByte :
    let s := fullCoreAt [0x08, 0xFF, 0xFF, 0xFF, 0xFF] 0xFFFFFFFA 0x11 0 0
    let t := coreAt [0x08, 0, 0, 0, 5] 0 0x11 0 0
    s.Inv ∧ (0xFFFFFFFF : Addr).toNat < s.memLen ∧ s.pc.toNat + 5 < 4294967296 ∧
      t.Inv ∧ t.memLen ≤ (5 : Addr).toNat := by decide

/-- `A = B`, `A = B + 1` and `A = B - 1`, at the highest `pc` from which a jump advances. -/
theorem witness_JumpsComplete :
    let s := fullCoreAt [] 0xFFFFFFFA 0x80 0x80 0
    let t := fullCoreAt [] 0xFFFFFFFA 0x80 0x7F 0
    let u := fullCoreAt [] 0xFFFFFFFA 0x7F 0x80 0
    s.regA = s.regB ∧ t.regA ≠ t.regB ∧ t.regB.toNat < t.regA.toNat ∧ u.regA.toNat < u.regB.toNat ∧
      s.regA.toNat ≤ s.regB.toNat ∧ s.regB.toNat ≤ s.regA.toNat ∧ s.pc.toNat + 5 < 4294967296 := by decide

/-- The lowest `pc` whose advance by one, and by five, passes the top, with `A` equal to, above and below `B`. -/
theorem witness_AdvancePastTopFaultsAfterEffect :
    let s := fullCoreAt [] 0xFFFFFFFF 0 0 0
    let t := fullCoreAt [] 0xFFFFFFFB 1 0 0
    let u := fullCoreAt [] 0xFFFFFFFB 0 1 0
    4294967296 ≤ s.pc.toNat + 1 ∧ s.regA = s.regB ∧ 4294967296 ≤ t.pc.toNat + 5 ∧
      (0xFFFFFFFF : Addr).toNat < t.memLen ∧ t.regA ≠ t.regB ∧ t.regB.toNat ≤ t.regA.toNat ∧
      4294967296 ≤ u.pc.toNat + 5 ∧ u.regA.toNat ≤ u.regB.toNat := by decide

/-- Jeq and Jneq at `A > B`, target 9. -/
theorem witness_ConditionsExcludeEachOther :
    let s := coreAt [] 0 2 1 0
    (9 : Addr) ≠ s.pc ∧ (9 : Addr).toNat ≠ s.pc.toNat + 5 ∧
      exec (.jeq 9) s = .next { s with pc := 5 } ∧ exec (.jneq 9) s = .next { s with pc := 9 } ∧
      exec (.jgt 9) s = .next { s with pc := 9 } ∧ exec (.jlt 9) s = .next { s with pc := 5 } :=
  ⟨by decide, by decide, rfl, rfl, rfl, rfl⟩

/-- Register C changes under Add, which does not read it. -/
theorem witness_RegistersReadAndWrittenAsListed :
    let s := coreAt [0x02] 0 1 2 9
    let t : State := { s with regC := 3, pc := 1 }
    exec .add s = .next t ∧ t.getReg .C ≠ s.getReg .C ∧ Instr.reads .C .add = false := ⟨rfl, by decide, rfl⟩

theorem witness_OnlyStoresChangeMemory :
    let s := storeCore 0x08 7
    let t : State := { s with pc := 5, mem := Memory.ofBytes 0 [0x08, 0, 0, 0, 7, 0x01, 0x00, 0x11] }
    s.Inv ∧ step s = .next t ∧ t.mem.read 7 ≠ s.mem.read 7 := ⟨by decide, rfl, by decide⟩

/-- A step that goes on, and one that stops. -/
theorem witness_PcAfterStepAsListed :
    let s := coreAt [0x00] 0 0 0 0
    let t := loadCore 0x05 8
    s.run = .running ∧ s.fetchInstr = .ok .nop ∧ step s = .next { s with pc := 1 } ∧
      t.run = .running ∧ t.fetchInstr = .ok (.loadA 8) ∧
      step t = .next { t with run := .faulted (.dataOutOfBounds 8) } := ⟨rfl, rfl, rfl, rfl, rfl, rfl⟩

/-- A fault of the fetch, one at a data address, and the fault of the advance. -/
theorem witness_FaultsArePrecise :
    let v := coreAt [0x10] 0 0 0 0
    let s := loadCore 0x05 8
    let u := fullCoreAt [0x02] 0xFFFFFFFF 1 2 0
    v.run = .running ∧ v.fetchInstr = .error (.illegalOpcode 0 0x10) ∧
      step v = .next { v with run := .faulted (.illegalOpcode 0 0x10) } ∧
    s.run = .running ∧ s.fetchInstr = .ok (.loadA 8) ∧
      step s = .next { s with run := .faulted (.dataOutOfBounds 8) } ∧
    u.run = .running ∧ u.fetchInstr = .ok .add ∧
      step u = .next { u with regC := 3, run := .faulted (.fetchOutOfBounds 4294967296) } :=
  ⟨rfl, rfl, rfl, rfl, rfl, rfl, rfl, rfl, rfl⟩

/-- The last valid address, and the highest `pc`. -/
theorem witness_StoreThenLoadObservesStoredValue :
    let s := coreAt [0] 0xFFFFFFF5 7 0 0
    s.Inv ∧ (0 : Addr).toNat < s.memLen ∧ s.pc.toNat + 10 < 4294967296 := by decide

/-- The first byte of the successor, and the last of its five. -/
theorem witness_StoreIsSeenByNextFetch :
    let s := coreAt [0x08, 0, 0, 0, 5, 0x11] 0 0x01 0 0
    let t := coreAt [0x0A, 0, 0, 0, 9, 0x08, 0, 0, 0, 0] 0 0 0 3
    s.Inv ∧ s.run = .running ∧ s.holdsAt s.pc.toNat (encode (Instr.storeOf 5 .A)) = true ∧
      (5 : Addr).toNat < s.memLen ∧ (5 : Addr).toNat = s.pc.toNat + 5 + 0 ∧
      t.Inv ∧ t.run = .running ∧ t.holdsAt t.pc.toNat (encode (Instr.storeOf 9 .C)) = true ∧
      (9 : Addr).toNat < t.memLen ∧ (9 : Addr).toNat = t.pc.toNat + 5 + 4 := by decide

theorem witness_AccessesAreInBounds : (⟨.dataWrite, 7, 0x11⟩ : Access) ∈ (storeCore 0x08 7).stepAccesses := by decide

/-- A load, a store and an instruction that is neither. -/
theorem witness_AccessesFollowTable :
    (loadCore 0x05 7).fetchInstr = .ok (Instr.loadOf 7 .A) ∧ (storeCore 0x0A 7).fetchInstr = .ok (Instr.storeOf 7 .C) ∧
      (coreAt [0x00] 0 0 0 0).fetchInstr = .ok .nop ∧ (loadCore 0x05 7).run = .running := ⟨rfl, rfl, rfl, rfl⟩

theorem witness_AccessesAccountForMemory : step State.reset =
    .next { State.reset with run := .faulted (.fetchOutOfBounds 0) } := rfl

theorem witness_StepKeepsInvariant : (storeCore 0x08 7).Inv ∧ (stepped (storeCore 0x08 7)).isSome = true := by decide

/-- The longest image that is accepted. -/
theorem witness_ResetMeetsInvariant : (List.replicate 4294967296 (0 : Byte)).length ≤ 4294967296 := by
  rw [List.length_replicate]

theorem witness_StoppedCoreStaysStopped :
    ({ State.reset with run := .exited 0 } : State).run ≠ .running ∧
      ({ State.reset with run := .faulted (.fetchOutOfBounds 0) } : State).run ≠ .running := by decide

theorem witness_ExitsExactlyByExitInstruction :
    let s := coreAt [0x01, 0xFF] 0 0 0 0
    s.run = .running ∧ step s = .next { s with run := .exited 0xFF } := ⟨rfl, rfl⟩

/-- The first address beyond memory, for each of the five jumps, at `A = B`, `A > B` and `A < B`. -/
theorem witness_JumpBeyondMemoryFaultsOnNextStep :
    let s := fun (op a b : Byte) => coreAt [op, 0, 0, 0, 5] 0 a b 0
    (s 0 0 0).run = .running ∧ (s 0 0 0).memLen ≤ (5 : Addr).toNat ∧
    (s 0x0B 0 0).holdsAt 0 (encode (.jump 5)) = true ∧
    (s 0x0C 7 7).holdsAt 0 (encode (.jeq 5)) = true ∧ (s 0x0C 7 7).regA = (s 0x0C 7 7).regB ∧
    (s 0x0D 7 6).holdsAt 0 (encode (.jneq 5)) = true ∧ (s 0x0D 7 6).regA ≠ (s 0x0D 7 6).regB ∧
    (s 0x0E 7 6).holdsAt 0 (encode (.jgt 5)) = true ∧ (s 0x0E 7 6).regB.toNat < (s 0x0E 7 6).regA.toNat ∧
    (s 0x0F 6 7).holdsAt 0 (encode (.jlt 5)) = true ∧ (s 0x0F 6 7).regA.toNat < (s 0x0F 6 7).regB.toNat := by decide

theorem witness_JumpToSelfRunsForever :
    let s := coreAt [0x0B, 0, 0, 0, 0] 0 0 0 0
    s.run = .running ∧ s.holdsAt s.pc.toNat (encode (.jump s.pc)) = true := by decide

theorem witness_ConstructionLoadsImage : ([] : List Byte).length ≤ 4294967296 ∧ [0x01, (7 : Byte)].length ≤ 4294967296 ∧
    [0x01, (7 : Byte)][1]? = some 7 := by decide

/-- The shortest image that is refused. -/
theorem witness_OversizedImageIsConfigError : 4294967296 < (List.replicate 4294967297 (0 : Byte)).length := by
  rw [List.length_replicate]; decide

theorem witness_ResetKeepsMemory : (storeCore 0x08 7).Inv ∧ (nextOf (runSteps 1 (storeCore 0x08 7))).isSome = true := by
  decide

/-- The last valid address, and the first invalid one. -/
theorem witness_HostReadsStoredByteAfterExit :
    let s := storeCore 0x08 7
    s.Inv ∧ s.run = .running ∧ (7 : Addr).toNat < s.memLen ∧ s.pc.toNat + 5 < 4294967296 ∧ 0 < s.memLen ∧
      0 ≠ (7 : Addr).toNat ∧ s.memLen ≤ 8 := by decide

theorem witness_FaultIsNeverAnExit :
    ({ State.reset with run := .exited 255 } : State).run = .exited 255 ∧
      ({ State.reset with run := .faulted (.fetchOutOfBounds 0) } : State).run = .faulted (.fetchOutOfBounds 0) := by decide

/-- One state for each form of the run state. -/
theorem witness_PortsReportRunState :
    (coreAt [0x01, 5] 0 0 0 0).Inv ∧ ({ coreAt [0x01, 5] 0 0 0 0 with run := .exited 5 } : State).Inv ∧
      ({ coreAt [0x10] 1 0 0 0 with run := .faulted (.fetchOutOfBounds 1) } : State).Inv ∧
      ({ coreAt [0x10] 0 0 0 0 with run := .faulted (.illegalOpcode 0 0x10) } : State).Inv ∧
      ({ loadCore 0x05 8 with run := .faulted (.dataOutOfBounds 8) } : State).Inv := by decide

/-- Two declarations and two code sections. -/
def twoSections : Program :=
  { data := [("x".toList, 1), ("y".toList, 2)]
    code := [⟨"main".toList, [.labelled .jump "end".toList "Jump end".toList]⟩, ⟨"end".toList, [.exitWith 0]⟩] }

theorem witness_LinkedImageLayout :
    (link twoSections).toOption = some [0x0B, 0, 0, 0, 7, 1, 2, 0x0B, 0, 0, 0, 12, 0x01, 0] := by decide

/-- The first and the last declaration. -/
theorem witness_DataLabelPointsAtItsByte :
    (link twoSections).toOption.isSome = true ∧ twoSections.data[0]? = some ("x".toList, 1) ∧
      twoSections.data[1]? = some ("y".toList, 2) := by decide

/-- The last code section. -/
theorem witness_CodeLabelCountsSectionsBefore :
    (link twoSections).toOption.isSome = true ∧
      twoSections.code = [⟨"main".toList, [.labelled .jump "end".toList "Jump end".toList]⟩] ++ ⟨"end".toList, [.exitWith 0]⟩ :: [] := by
  decide

/-- A code section with a token of each form. -/
def eachToken : Program :=
  { data := [("x".toList, 7)]
    code := [⟨"main".toList, [.ignore, .data "y".toList 9, .plain .add, .labelled .loadA "x".toList "LoadA x".toList,
      .exitWith 0]⟩] }

/-- Each of the five forms as the token, the first and the last of the code among them. -/
theorem witness_LinkedTokensDecode :
    let load := Token.labelled .loadA "x".toList "LoadA x".toList
    let code := eachToken.code.flatMap fun c => c.tokens
    (link eachToken).toOption = some [0x0B, 0, 0, 0, 6, 7, 9, 0x02, 0x05, 0, 0, 0, 5, 0x01, 0] ∧
    code = [] ++ .ignore :: [.data "y".toList 9, .plain .add, load, .exitWith 0] ∧
    code = [.ignore] ++ .data "y".toList 9 :: [.plain .add, load, .exitWith 0] ∧
    code = [.ignore, .data "y".toList 9] ++ .plain .add :: [load, .exitWith 0] ∧
    code = [.ignore, .data "y".toList 9, .plain .add] ++ load :: [.exitWith 0] ∧
    code = [.ignore, .data "y".toList 9, .plain .add, load] ++ .exitWith 0 :: [] := by decide

/-- The program that names `x`, which nothing declares, after an Add. -/
def undeclared : Program :=
  { data := [], code := [⟨"main".toList, [.plain .add, .labelled .loadA "x".toList "LoadA x".toList, .exitWith 0]⟩] }

theorem witness_UnresolvedLabelFailsLink :
    duplicateIn undeclared.labels = none ∧ (undeclared.code.flatMap fun c => c.tokens) =
      [.plain .add] ++ .labelled .loadA "x".toList "LoadA x".toList :: [.exitWith 0] ∧
    emitTokens undeclared.labels [.plain .add] = .ok [0x02] ∧ lookupLabel undeclared.labels "x".toList = none :=
  ⟨by decide, by decide, rfl, by decide⟩

/-- An ignored line, a well-formed and a malformed one. -/
theorem witness_ProgramWithoutHeaderIsInvalid :
    ∀ raw, raw ∈ ["// a:".toList, "Exit 0".toList, "Foo".toList] → isIgnored raw = true ∨
      ((trim raw).getLast? ≠ some ':' ∧ (trim (beforeComment (trim raw))).getLast? ≠ some ':') := by decide

end Sys2Proof.Tests
end

section
/-! SUPPORT. The decoder inverts the encoder and the encoder the decoder, by the three formats of R50; so the fetch answers
an instruction exactly when its bytes stand at `pc` in bounds. -/

namespace Sys2Proof

/-! ## An instruction is a tag with the operand of its format -/

/-- The encoded bytes by format (R51 to R53). -/
theorem encode_of_format (t : Opcode) (imm8 : Byte) (addr : Addr) :
    encode (t.withOperand imm8 addr) =
      match t.format with
      | .f1 => [t.byte]
      | .f2 => [t.byte, imm8]
      | .f5 => t.byte :: bytesOfAddress addr := by
  cases t <;> rfl

theorem encode_f1 {t : Opcode} (hf : t.format = .f1) (imm8 : Byte) (addr : Addr) :
    encode (t.withOperand imm8 addr) = [t.byte] := by
  rw [encode_of_format, hf]

theorem encode_f2 {t : Opcode} (hf : t.format = .f2) (imm8 : Byte) (addr : Addr) :
    encode (t.withOperand imm8 addr) = [t.byte, imm8] := by
  rw [encode_of_format, hf]

theorem encode_f5 {t : Opcode} (hf : t.format = .f5) (imm8 : Byte) (addr : Addr) :
    encode (t.withOperand imm8 addr) = t.byte :: bytesOfAddress addr := by
  rw [encode_of_format, hf]

/-- Every instruction is its tag with one operand, the other being 0 (R54, R55). -/
theorem instr_forms (i : Instr) :
    (∃ t : Opcode, t.format = .f1 ∧ i = t.withOperand 0 0) ∨
    (∃ (t : Opcode) (imm8 : Byte), t.format = .f2 ∧ i = t.withOperand imm8 0) ∨
    (∃ (t : Opcode) (addr : Addr), t.format = .f5 ∧ i = t.withOperand 0 addr) := by
  cases i with
  | nop => exact .inl ⟨.nop, rfl, rfl⟩
  | exit code => exact .inr (.inl ⟨.exit, code, rfl, rfl⟩)
  | add => exact .inl ⟨.add, rfl, rfl⟩
  | subtract => exact .inl ⟨.subtract, rfl, rfl⟩
  | multiply => exact .inl ⟨.multiply, rfl, rfl⟩
  | loadA addr => exact .inr (.inr ⟨.loadA, addr, rfl, rfl⟩)
  | loadB addr => exact .inr (.inr ⟨.loadB, addr, rfl, rfl⟩)
  | loadC addr => exact .inr (.inr ⟨.loadC, addr, rfl, rfl⟩)
  | storeA addr => exact .inr (.inr ⟨.storeA, addr, rfl, rfl⟩)
  | storeB addr => exact .inr (.inr ⟨.storeB, addr, rfl, rfl⟩)
  | storeC addr => exact .inr (.inr ⟨.storeC, addr, rfl, rfl⟩)
  | jump addr => exact .inr (.inr ⟨.jump, addr, rfl, rfl⟩)
  | jeq addr => exact .inr (.inr ⟨.jeq, addr, rfl, rfl⟩)
  | jneq addr => exact .inr (.inr ⟨.jneq, addr, rfl, rfl⟩)
  | jgt addr => exact .inr (.inr ⟨.jgt, addr, rfl, rfl⟩)
  | jlt addr => exact .inr (.inr ⟨.jlt, addr, rfl, rfl⟩)

theorem length_encode_le (i : Instr) : (encode i).length ≤ Config.longestInstruction := by
  rcases instr_forms i with ⟨t, hf, rfl⟩ | ⟨t, imm8, hf, rfl⟩ | ⟨t, addr, hf, rfl⟩
  · simp [encode_f1 hf, Config.longestInstruction]
  · simp [encode_f2 hf, Config.longestInstruction]
  · simp [encode_f5 hf, length_bytesOfAddress, Config.longestInstruction]

/-! ## Decoding and encoding -/

/-- The decoder gives an encoded instruction back, and leaves what follows (R61). -/
theorem decode_encode_append (i : Instr) (rest : List Byte) : decode (encode i ++ rest) = .instr i rest := by
  rcases instr_forms i with ⟨t, hf, rfl⟩ | ⟨t, imm8, hf, rfl⟩ | ⟨t, addr, hf, rfl⟩
  · rw [encode_f1 hf, List.cons_append, decode_opcode (opcodeOf_byte t)]
    simp [decodeOperand, hf]
  · rw [encode_f2 hf, List.cons_append, decode_opcode (opcodeOf_byte t)]
    simp [decodeOperand, hf]
  · rw [encode_f5 hf, List.cons_append, decode_opcode (opcodeOf_byte t)]
    simp [decodeOperand, hf, bytesOfAddress, addressOfBytes_extract]

/-- What decodes to an instruction begins with its encoding (R58). -/
theorem eq_encode_append_of_decode {bytes : List Byte} {i : Instr} {rest : List Byte}
    (h : decode bytes = .instr i rest) : bytes = encode i ++ rest := by
  rcases decode_cases bytes with ⟨-, e⟩ | ⟨b, -, -, -, e⟩ | ⟨t, operand, rfl, e⟩
  · simp [e] at h
  · simp [e] at h
  · rw [e] at h
    rcases decodeOperand_cases t operand with
      ⟨hf, e⟩ | ⟨hf, imm8, rest', rfl, e⟩ | ⟨hf, a3, a2, a1, a0, rest', rfl, e⟩ | ⟨-, e⟩
    · obtain ⟨rfl, rfl⟩ : _ = i ∧ _ = rest := by simpa [e] using h
      rw [encode_f1 hf]; rfl
    · obtain ⟨rfl, rfl⟩ : _ = i ∧ _ = rest := by simpa [e] using h
      rw [encode_f2 hf]; rfl
    · obtain ⟨rfl, rfl⟩ : _ = i ∧ _ = rest := by simpa [e] using h
      rw [encode_f5 hf, bytesOfAddress_addressOfBytes]; rfl
    · simp [e] at h

/-- A refusal for a missing byte names the number of bytes there are, fewer than the longest instruction has (R93). -/
theorem length_of_decode_truncated {bytes : List Byte} {k : Nat} (h : decode bytes = .truncated k) :
    k = bytes.length ∧ k < Config.longestInstruction := by
  rcases decode_cases bytes with ⟨rfl, e⟩ | ⟨b, -, -, -, e⟩ | ⟨t, operand, rfl, e⟩
  · obtain rfl : 0 = k := by simpa [e] using h
    exact ⟨rfl, by decide⟩
  · simp [e] at h
  · rw [e] at h
    have hlen : t.length ≤ Config.longestInstruction := by cases t <;> decide
    rcases decodeOperand_cases t operand with ⟨-, e⟩ | ⟨-, _, _, -, e⟩ | ⟨-, _, _, _, _, _, -, e⟩ | ⟨hlt, e⟩
    · simp [e] at h
    · simp [e] at h
    · simp [e] at h
    · obtain rfl : 1 + operand.length = k := by simpa [e] using h
      exact ⟨by simp [Nat.add_comm], by omega⟩

/-- The byte of an illegal-opcode refusal is the first, and it is no opcode (R57). -/
theorem eq_cons_of_decode_illegal {bytes : List Byte} {b : Byte} (h : decode bytes = .illegal b) :
    ∃ rest, bytes = b :: rest ∧ 16 ≤ b.toNat := by
  rcases decode_cases bytes with ⟨-, e⟩ | ⟨c, rest, rfl, hc, e⟩ | ⟨t, operand, rfl, e⟩
  · simp [e] at h
  · obtain rfl : c = b := by simpa [e] using h
    exact ⟨rest, rfl, (opcodeOf_eq_none_iff c).1 hc⟩
  · rw [e] at h
    rcases decodeOperand_cases t operand with ⟨-, e⟩ | ⟨-, _, _, -, e⟩ | ⟨-, _, _, _, _, _, -, e⟩ | ⟨-, e⟩
    all_goals simp [e] at h

end Sys2Proof

namespace Sys2Proof.Machine

variable {s : State}

/-! ## The fetch and the bytes at `pc` -/

/-- What is read from an address on is held there. -/
theorem holdsAt_of_bytesFrom {a n : Nat} {bytes rest : List Byte} (h : s.bytesFrom a n = bytes ++ rest) :
    s.holdsAt a bytes = true := by
  induction bytes generalizing a n with
  | nil => rfl
  | cons b bytes ih =>
    cases n with
    | zero => simp [State.bytesFrom] at h
    | succ n =>
      rw [bytesFrom_succ] at h
      by_cases ha : s.inBounds a = true
      · obtain ⟨hb, hrest⟩ : s.mem.read a = b ∧ s.bytesFrom (a + 1) n = bytes ++ rest := by simpa [ha] using h
        exact (holdsAt_cons_iff s a b bytes).2 ⟨(inBounds_iff s a).1 ha, hb, ih hrest⟩
      · simp [ha] at h

/-- The fetch answers an instruction exactly when its bytes stand at `pc`, all in bounds (R91 to R93). -/
theorem fetchInstr_eq_ok_iff (i : Instr) :
    s.fetchInstr = .ok i ↔ s.holdsAt s.pc.toNat (encode i) = true := by
  constructor
  · intro h
    rcases fetchInstr_cases s with ⟨j, rest, hdecode, e⟩ | ⟨b, -, e⟩ | ⟨k, -, e⟩
    · obtain rfl : j = i := by simpa [e] using h
      exact holdsAt_of_bytesFrom (eq_encode_append_of_decode hdecode)
    · simp [e] at h
    · simp [e] at h
  · intro h
    have hwindow : s.fetchWindow = encode i ++ _ := bytesFrom_of_holdsAt s h (length_encode_le i)
    rw [State.fetchInstr, hwindow, decode_encode_append]

/-- A running core runs what it fetched (R90, R94). -/
theorem step_of_fetchInstr {i : Instr} (hrun : s.run = .running) (h : s.fetchInstr = .ok i) : step s = exec i s := by
  simp [step, hrun, h]

/-- A fetch faults for the byte at `pc`, or for the first address from `pc` on that is out of bounds (R151, R152). -/
theorem fetchInstr_error_cases {f : ExecutionFault} (h : s.fetchInstr = .error f) :
    (∃ b, f = .illegalOpcode s.pc b ∧ s.holdsAt s.pc.toNat [b] = true ∧ 16 ≤ b.toNat) ∨
    (f = .fetchOutOfBounds (max s.pc.toNat s.memLen) ∧ s.memLen < s.pc.toNat + Config.longestInstruction) := by
  rcases fetchInstr_cases s with ⟨i, rest, -, e⟩ | ⟨b, hdecode, e⟩ | ⟨k, hdecode, e⟩
  · simp [e] at h
  · obtain rfl : ExecutionFault.illegalOpcode s.pc b = f := by simpa [e] using h
    obtain ⟨rest, hwindow, hb⟩ := eq_cons_of_decode_illegal hdecode
    exact .inl ⟨b, rfl, holdsAt_of_bytesFrom (rest := rest) hwindow, hb⟩
  · obtain rfl : ExecutionFault.fetchOutOfBounds (s.pc.toNat + k) = f := by simpa [e] using h
    obtain ⟨hk, hlt⟩ := length_of_decode_truncated hdecode
    rw [length_fetchWindow] at hk
    simp only [Config.longestInstruction] at hlt ⊢
    refine .inr ⟨?_, by omega⟩
    congr 1
    omega

end Sys2Proof.Machine
end

section
/-! SUPPORT. How the updates of State commute with writing a register, and what an instruction's meaning leaves. -/

namespace Sys2Proof.Machine

variable (s : State) (q r : Reg) (v w : Byte)

/-! ## Two writes of registers -/

theorem setReg_setReg_same : (s.setReg r v).setReg r w = s.setReg r w := by cases r <;> rfl

theorem setReg_comm (h : q ≠ r) : (s.setReg r v).setReg q w = (s.setReg q w).setReg r v := by
  cases r <;> cases q <;> trivial

/-! ## Writing a register and another update -/

theorem setReg_withRun (x : RunState) : { s.setReg r v with run := x } = ({ s with run := x } : State).setReg r v := by
  cases r <;> rfl

theorem setReg_withPc (x : Addr) : { s.setReg r v with pc := x } = ({ s with pc := x } : State).setReg r v := by
  cases r <;> rfl

theorem setReg_withMem (m : Memory) : { s.setReg r v with mem := m } = ({ s with mem := m } : State).setReg r v := by
  cases r <;> rfl

theorem advance_setReg (len : Nat) : (s.setReg r v).advance len = (s.advance len).setReg r v := by
  by_cases h : s.pc.toNat + len < Config.addressLimit
  · rw [advance_of_lt s h, advance_of_lt _ (by simpa using h), setReg_pc, setReg_withPc]
  · rw [advance_of_ge s h, advance_of_ge _ (by simpa using h), setReg_pc]
    exact setReg_withRun s r v _

@[simp] theorem advance_getReg (len : Nat) : (s.advance len).getReg r = s.getReg r := by
  cases r <;> simp

@[simp] theorem withRun_getReg (x : RunState) : ({ s with run := x } : State).getReg r = s.getReg r := by
  cases r <;> rfl

@[simp] theorem withPc_getReg (x : Addr) : ({ s with pc := x } : State).getReg r = s.getReg r := by
  cases r <;> rfl

@[simp] theorem withMem_getReg (m : Memory) : ({ s with mem := m } : State).getReg r = s.getReg r := by
  cases r <;> rfl

/-! ## Agreement in all but one register -/

theorem agreesBut_refl : s.agreesBut r s := ⟨fun _ _ => rfl, rfl, rfl, rfl, rfl⟩

theorem agreesBut_setReg : s.agreesBut r (s.setReg r v) :=
  ⟨fun q h => (getReg_setReg_other s r q v h).symm, by simp, by simp, by simp, by simp⟩

/-! ## What an instruction's meaning leaves -/

variable {s}

/-- Everything `exec` can leave: an exit; the fault of a data address; a stored byte, a register the instruction writes,
or nothing, and then the advance; or a taken jump. -/
theorem exec_next_cases {i : Instr} {t : State} (h : exec i s = .next t) :
    (∃ code, i = .exit code ∧ t = { s with run := .exited code }) ∨
    (∃ addr r, (i = Instr.loadOf addr r ∨ i = Instr.storeOf addr r) ∧ s.memLen ≤ addr.toNat ∧
      t = { s with run := .faulted (.dataOutOfBounds addr) }) ∨
    (∃ addr r, i = Instr.storeOf addr r ∧ addr.toNat < s.memLen ∧
      t = ({ s with mem := s.mem.write addr.toNat (s.getReg r) } : State).advance 5) ∨
    (∃ r v len, i.writes r = true ∧ len ≤ 5 ∧ t = (s.setReg r v).advance len) ∨
    (∃ len, len ≤ 5 ∧ t = s.advance len) ∨
    (∃ addr, t = { s with pc := addr }) := by
  rcases exec_cases s i with ⟨-, e⟩ | ⟨code, hi, e⟩ | ⟨op, hi, e⟩ | ⟨r, addr, hi, e⟩ | ⟨r, addr, hi, e⟩ | ⟨addr, -, e⟩ |
    ⟨addr, condition, -, e⟩
  all_goals rw [e] at h; obtain rfl := Host.Outcome.next.inj h
  · exact .inr (.inr (.inr (.inr (.inl ⟨1, by decide, rfl⟩))))
  · exact .inl ⟨code, hi, rfl⟩
  · have hw : i.writes .C = true := by rcases hi with ⟨rfl, -⟩ | ⟨rfl, -⟩ | ⟨rfl, -⟩ <;> rfl
    exact .inr (.inr (.inr (.inl ⟨.C, op s.regA s.regB, 1, hw, by decide, rfl⟩)))
  · have hw : i.writes r = true := by subst hi; cases r <;> rfl
    rcases loadInto_cases s r addr 5 with ⟨-, e⟩ | ⟨hlen, e⟩
    · exact .inr (.inr (.inr (.inl ⟨r, _, 5, hw, by decide, e⟩)))
    · exact .inr (.inl ⟨addr, r, .inl hi, hlen, e⟩)
  · rcases storeFrom_cases s r addr 5 with ⟨hlen, e⟩ | ⟨hlen, e⟩
    · exact .inr (.inr (.inl ⟨addr, r, hi, hlen, e⟩))
    · exact .inr (.inl ⟨addr, r, .inr hi, hlen, e⟩)
  · exact .inr (.inr (.inr (.inr (.inr ⟨addr, rfl⟩))))
  · rcases jumpIf_cases s (condition s.regA s.regB) addr 5 with ⟨-, e⟩ | ⟨-, e⟩
    · exact .inr (.inr (.inr (.inr (.inr ⟨addr, e⟩))))
    · exact .inr (.inr (.inr (.inr (.inl ⟨5, by decide, e⟩))))

end Sys2Proof.Machine
end

section
/-! SUPPORT. What `State.stopExplained` says of each run state; then the proof that a step keeps the invariant. -/

namespace Sys2Proof.Machine

variable {s t : State}

/-! ## A stop that the state explains -/

theorem stopExplained_running (h : s.run = .running) : s.stopExplained = true := by
  simp [State.stopExplained, h]

theorem stopExplained_exited_iff {code : Byte} (h : s.run = .exited code) :
    s.stopExplained = true ↔ s.holdsAt s.pc.toNat (encode (.exit code)) = true := by
  simp [State.stopExplained, h]

theorem stopExplained_fetchOutOfBounds_iff {a : Nat} (h : s.run = .faulted (.fetchOutOfBounds a)) :
    s.stopExplained = true ↔
      (a = max s.pc.toNat s.memLen ∨ Config.addressLimit ≤ a) ∧ s.pc.toNat ≤ a ∧
        a ≤ s.pc.toNat + Config.longestInstruction := by
  simp [State.stopExplained, h, and_assoc]

theorem stopExplained_illegalOpcode_iff {p : Addr} {b : Byte} (h : s.run = .faulted (.illegalOpcode p b)) :
    s.stopExplained = true ↔ p = s.pc ∧ s.holdsAt s.pc.toNat [b] = true ∧ 16 ≤ b.toNat := by
  simp [State.stopExplained, h, opcodeByteWellFormed, and_assoc]

theorem stopExplained_dataOutOfBounds_iff {addr : Addr} (h : s.run = .faulted (.dataOutOfBounds addr)) :
    s.stopExplained = true ↔ s.memLen ≤ addr.toNat ∧ s.dataAccessAtPc addr = true := by
  simp [State.stopExplained, h]

/-- Which bytes are held does not depend on the run state. -/
theorem holdsAt_withRun (s : State) (x : RunState) (a : Nat) (bytes : List Byte) :
    ({ s with run := x } : State).holdsAt a bytes = s.holdsAt a bytes :=
  holdsAt_congr (s := s) (t := { s with run := x }) rfl rfl a bytes

theorem dataAccessAtPc_iff (addr : Addr) :
    s.dataAccessAtPc addr = true ↔
      ∃ r, s.holdsAt s.pc.toNat (encode (Instr.loadOf addr r)) = true ∨
        s.holdsAt s.pc.toNat (encode (Instr.storeOf addr r)) = true := by
  simp only [State.dataAccessAtPc, List.any_eq_true, Bool.or_eq_true]
  exact ⟨fun ⟨r, _, h⟩ => ⟨r, h⟩, fun ⟨r, h⟩ => ⟨r, by cases r <;> simp, h⟩⟩

/-! ## The invariant through the updates of State -/

/-- A running state over the same memory meets the invariant. -/
theorem inv_of_running (hs : s.Inv) (hrun : t.run = .running) (hmem : t.mem = s.mem) (hlen : t.memLen = s.memLen) :
    t.Inv := by
  obtain ⟨hwf, hbelow, hlimit, -⟩ := hs
  exact ⟨by rwa [hmem], by rwa [hmem, hlen], by rwa [hlen], stopExplained_running hrun⟩

/-- A stop keeps the invariant when the state explains it. -/
theorem inv_withRun (hs : s.Inv) {x : RunState} (hx : ({ s with run := x } : State).stopExplained = true) :
    ({ s with run := x } : State).Inv := by
  obtain ⟨hwf, hbelow, hlimit, -⟩ := hs
  exact ⟨hwf, hbelow, hlimit, hx⟩

/-- A store at a valid address of a running core keeps the invariant. -/
theorem inv_write (hs : s.Inv) (hrun : s.run = .running) {a : Nat} (ha : a < s.memLen) (v : Byte) :
    ({ s with mem := s.mem.write a v } : State).Inv := by
  obtain ⟨hwf, hbelow, hlimit, -⟩ := hs
  exact ⟨wf_write a v hwf, below_write ha hbelow, hlimit, stopExplained_running hrun⟩

/-- The advance of a running core keeps the invariant: its fault names an address past `2^32 - 1` (R95, D11). -/
theorem inv_advance (hs : s.Inv) (hrun : s.run = .running) {len : Nat} (hlen : len ≤ 5) : (s.advance len).Inv := by
  rcases advance_cases s len with ⟨-, e⟩ | ⟨htop, e⟩
  · rw [e]
    exact inv_of_running hs hrun rfl rfl
  · rw [e]
    exact inv_withRun hs ((stopExplained_fetchOutOfBounds_iff rfl).2
      ⟨.inr htop, Nat.le_add_right _ _, Nat.add_le_add_left hlen _⟩)

/-! ## The invariant through a step -/

/-- Running the instruction that stands at `pc` keeps the invariant. -/
theorem inv_exec {i : Instr} (hs : s.Inv) (hrun : s.run = .running)
    (hi : s.holdsAt s.pc.toNat (encode i) = true) (h : exec i s = .next t) : t.Inv := by
  rcases exec_next_cases h with ⟨code, rfl, rfl⟩ | ⟨addr, r, hir, hlen, rfl⟩ | ⟨addr, r, -, hlen, rfl⟩ |
    ⟨r, v, len, -, hlen, rfl⟩ | ⟨len, hlen, rfl⟩ | ⟨addr, rfl⟩
  · exact inv_withRun hs ((stopExplained_exited_iff rfl).2 (by rwa [holdsAt_withRun]))
  · refine inv_withRun hs ((stopExplained_dataOutOfBounds_iff rfl).2 ⟨hlen, (dataAccessAtPc_iff addr).2 ⟨r, ?_⟩⟩)
    rcases hir with rfl | rfl
    · exact .inl (by rwa [holdsAt_withRun])
    · exact .inr (by rwa [holdsAt_withRun])
  · exact inv_advance (inv_write hs hrun hlen _) hrun (Nat.le_refl 5)
  · exact inv_advance (inv_of_running hs (by simpa using hrun) (by simp) (by simp)) (by simpa using hrun) hlen
  · exact inv_advance hs hrun hlen
  · exact inv_of_running hs hrun rfl rfl

/-- The fault of a fetch keeps the invariant. -/
theorem inv_fetchFault {f : ExecutionFault} (hs : s.Inv) (h : s.fetchInstr = .error f) :
    ({ s with run := .faulted f } : State).Inv := by
  refine inv_withRun hs ?_
  rcases fetchInstr_error_cases h with ⟨b, rfl, hb, hillegal⟩ | ⟨rfl, hlen⟩
  · refine (stopExplained_illegalOpcode_iff rfl).2 ⟨rfl, ?_, hillegal⟩
    rwa [holdsAt_withRun]
  · have hmax : max s.pc.toNat s.memLen ≤ s.pc.toNat + Config.longestInstruction := by omega
    exact (stopExplained_fetchOutOfBounds_iff rfl).2 ⟨.inl rfl, Nat.le_max_left _ _, hmax⟩

/-- Settles O33: an instruction that was fetched stands at `pc`, a fetch fault names its failed check, and a stopped core
stays as it is. -/
theorem stepKeepsInvariant : Obligations.StepKeepsInvariant := by
  intro s t hs h
  rcases step_cases s with ⟨hrun, i, hfetch, e⟩ | ⟨-, f, hfetch, e⟩ | ⟨-, e⟩
  · exact inv_exec hs hrun ((fetchInstr_eq_ok_iff i).1 hfetch) (e ▸ h)
  · obtain rfl := Host.Outcome.next.inj (e ▸ h)
    exact inv_fetchFault hs hfetch
  · obtain rfl := Host.Outcome.next.inj (e ▸ h)
    exact hs

end Sys2Proof.Machine
end

section
/-! SUPPORT. The frames: which registers, which cells and which `pc` an instruction reads and leaves. -/

namespace Sys2Proof.Machine

variable {s t : State}

/-! ## Registers an instruction does not read -/

/-- The one register that is no operand of the ALU and of the comparisons (R11). -/
theorem eq_C_of_not_operand {r : Reg} (h : (r == .A || r == .B) = false) : r = .C := by
  cases r with
  | A => exact nomatch h
  | B => exact nomatch h
  | C => rfl

/-- A load does not read the register it writes, nor any other. -/
theorem loadInto_setReg (q r : Reg) (v : Byte) (addr : Addr) (len : Nat) :
    (s.setReg r v).loadInto q addr len = (s.loadInto q addr len).setReg r v ∧
      (s.loadInto q addr len).getReg r = s.getReg r ∨
    (s.setReg r v).loadInto q addr len = s.loadInto q addr len := by
  rcases loadInto_cases s q addr len with ⟨hlen, e⟩ | ⟨hlen, e⟩ <;>
    rcases loadInto_cases (s.setReg r v) q addr len with ⟨hlen', e'⟩ | ⟨hlen', e'⟩ <;>
    rw [setReg_memLen] at hlen'
  · by_cases hq : q = r
    · subst hq
      exact .inr (by rw [e, e', setReg_setReg_same, setReg_mem])
    · refine .inl ⟨by rw [e, e', setReg_comm _ _ _ _ _ hq, advance_setReg, setReg_mem], ?_⟩
      rw [e, advance_getReg, getReg_setReg_other _ _ _ _ (Ne.symm hq)]
  · omega
  · omega
  · exact .inl ⟨by rw [e, e', setReg_withRun], by rw [e, withRun_getReg]⟩

/-- A store reads only the register it stores, and writes none. -/
theorem storeFrom_setReg {q r : Reg} (hq : q ≠ r) (v : Byte) (addr : Addr) (len : Nat) :
    (s.setReg r v).storeFrom q addr len = (s.storeFrom q addr len).setReg r v ∧
      (s.storeFrom q addr len).getReg r = s.getReg r := by
  rcases storeFrom_cases s q addr len with ⟨hlen, e⟩ | ⟨hlen, e⟩ <;>
    rcases storeFrom_cases (s.setReg r v) q addr len with ⟨hlen', e'⟩ | ⟨hlen', e'⟩ <;>
    rw [setReg_memLen] at hlen'
  · rw [e, e', getReg_setReg_other _ _ _ _ hq, setReg_mem, setReg_withMem, advance_setReg]
    exact ⟨rfl, by simp⟩
  · omega
  · omega
  · exact ⟨by rw [e, e', setReg_withRun], by rw [e, withRun_getReg]⟩

/-- A conditional jump whose condition is decided reads and writes no register. -/
theorem jumpIf_setReg (r : Reg) (v : Byte) (taken : Bool) (addr : Addr) (len : Nat) :
    (s.setReg r v).jumpIf taken addr len = (s.jumpIf taken addr len).setReg r v ∧
      (s.jumpIf taken addr len).getReg r = s.getReg r := by
  cases taken with
  | true => exact ⟨setReg_withPc s r v addr, withPc_getReg s r addr⟩
  | false => exact ⟨advance_setReg s r v len, advance_getReg s r len⟩

/-- A register an instruction does not read keeps another value through it, or is overwritten by the same one. -/
theorem exec_setReg {i : Instr} {r : Reg} (hr : i.reads r = false) (h : exec i s = .next t) (v : Byte) :
    exec i (s.setReg r v) = .next (t.setReg r v) ∧ t.getReg r = s.getReg r ∨
    exec i (s.setReg r v) = .next t := by
  rcases exec_cases s i with ⟨rfl, e⟩ | ⟨code, rfl, e⟩ | ⟨op, hi, e⟩ | ⟨q, addr, rfl, e⟩ | ⟨q, addr, rfl, e⟩ |
    ⟨addr, rfl, e⟩ | ⟨addr, condition, hi, e⟩
  all_goals rw [e] at h; obtain rfl := Host.Outcome.next.inj h
  · exact .inl ⟨congrArg _ (advance_setReg s r v 1), advance_getReg s r 1⟩
  · exact .inl ⟨congrArg _ (setReg_withRun s r v (.exited code)), withRun_getReg s r _⟩
  · obtain rfl : r = .C := by rcases hi with ⟨rfl, -⟩ | ⟨rfl, -⟩ | ⟨rfl, -⟩ <;> exact eq_C_of_not_operand hr
    exact .inr (by rcases hi with ⟨rfl, rfl⟩ | ⟨rfl, rfl⟩ | ⟨rfl, rfl⟩ <;> rfl)
  · rw [exec_loadOf]
    rcases loadInto_setReg (s := s) q r v addr 5 with ⟨e, hsame⟩ | e
    · exact .inl ⟨congrArg _ e, hsame⟩
    · exact .inr (congrArg _ e)
  · have hq : q ≠ r := by rintro rfl; cases q <;> simp [Instr.storeOf, Instr.reads] at hr
    obtain ⟨e, hsame⟩ := storeFrom_setReg (s := s) hq v addr 5
    rw [exec_storeOf]
    exact .inl ⟨congrArg _ e, hsame⟩
  · exact .inl ⟨congrArg _ (setReg_withPc s r v addr), withPc_getReg s r addr⟩
  · obtain rfl : r = .C := by
      rcases hi with ⟨rfl, -⟩ | ⟨rfl, -⟩ | ⟨rfl, -⟩ | ⟨rfl, -⟩ <;> exact eq_C_of_not_operand hr
    obtain ⟨e, hsame⟩ := jumpIf_setReg (s := s) .C v (condition s.regA s.regB) addr 5
    refine .inl ⟨?_, hsame⟩
    rw [← e]
    rcases hi with ⟨rfl, rfl⟩ | ⟨rfl, rfl⟩ | ⟨rfl, rfl⟩ | ⟨rfl, rfl⟩ <;> rfl

/-- A register that changes is one that the instruction writes. -/
theorem writes_of_getReg_ne {i : Instr} {q : Reg} (h : exec i s = .next t) (hq : t.getReg q ≠ s.getReg q) :
    i.writes q = true := by
  rcases exec_next_cases h with ⟨code, -, rfl⟩ | ⟨addr, r, -, -, rfl⟩ | ⟨addr, r, -, -, rfl⟩ |
    ⟨r, v, len, hw, -, rfl⟩ | ⟨len, -, rfl⟩ | ⟨addr, rfl⟩
  case inr.inr.inr.inl =>
    have hqr : q = r := by
      by_contra hne
      exact hq (by rw [advance_getReg, getReg_setReg_other _ _ _ _ hne])
    rwa [hqr]
  all_goals exact absurd (by simp) hq

/-- Settles O24: what is written lies in the write column, and a register outside the read column commutes with `exec`. -/
theorem registersReadAndWrittenAsListed : Obligations.RegistersReadAndWrittenAsListed := by
  intro i s t r h
  refine ⟨writes_of_getReg_ne h, fun hr v => ?_⟩
  rcases exec_setReg hr h v with ⟨e, hsame⟩ | e
  · exact ⟨_, e, agreesBut_setReg t r v, .inr ⟨hsame, getReg_setReg_same t r v⟩⟩
  · exact ⟨t, e, agreesBut_refl t r, .inl rfl⟩

/-! ## Memory -/

/-- An instruction's meaning keeps `MEMLEN`, and memory but for the one cell of a store inside it (R20, R133). -/
theorem exec_mem_cases {i : Instr} (h : exec i s = .next t) :
    t.memLen = s.memLen ∧
    (t.mem = s.mem ∨ ∃ addr r, i = Instr.storeOf addr r ∧ addr.toNat < s.memLen ∧
      t.mem = s.mem.write addr.toNat (s.getReg r)) := by
  rcases exec_next_cases h with ⟨code, -, rfl⟩ | ⟨addr, r, -, -, rfl⟩ | ⟨addr, r, hi, hlen, rfl⟩ |
    ⟨r, v, len, -, -, rfl⟩ | ⟨len, -, rfl⟩ | ⟨addr, rfl⟩
  case inr.inr.inl => exact ⟨advance_memLen _ 5, .inr ⟨addr, r, hi, hlen, advance_mem _ 5⟩⟩
  all_goals exact ⟨by simp, .inl (by simp)⟩

/-- Settles O25: only a fetched store reaches memory, and a write changes no other cell. -/
theorem onlyStoresChangeMemory : Obligations.OnlyStoresChangeMemory := by
  rintro s t ⟨hwf, -⟩ h
  rcases step_cases s with ⟨hrun, i, hfetch, e⟩ | ⟨-, f, -, e⟩ | ⟨-, e⟩ <;> rw [e] at h
  · obtain ⟨hlen, hmem | ⟨addr, r, rfl, haddr, hmem⟩⟩ := exec_mem_cases h <;> refine ⟨hlen, fun a ha => ?_⟩
    · exact absurd (by rw [hmem]) ha
    · have hread := read_write hwf addr.toNat a (s.getReg r)
      rw [hmem, hread] at ha
      obtain rfl : addr.toNat = a := by
        by_contra hne
        exact ha (if_neg hne)
      exact ⟨hrun, addr, r, hfetch, rfl, haddr, by rw [hmem, hread, if_pos rfl]⟩
  · obtain rfl := Host.Outcome.next.inj h
    exact ⟨rfl, fun a ha => absurd rfl ha⟩
  · obtain rfl := Host.Outcome.next.inj h
    exact ⟨rfl, fun a ha => absurd rfl ha⟩

/-! ## The program counter -/

/-- From `s` to `t`, `pc` grows by `len` without wrap-around if `t` runs, and stays if `t` has stopped. -/
def State.advancesPc (s t : State) (len : Nat) : Prop :=
  (t.run ≠ .running → t.pc = s.pc) ∧ (t.run = .running → t.pc.toNat = s.pc.toNat + len)

theorem advancesPc_withRun (s : State) {x : RunState} (hx : x ≠ .running) (len : Nat) :
    s.advancesPc { s with run := x } len := ⟨fun _ => rfl, fun h => absurd h hx⟩

/-- The sequential advance of R95, of a running core. -/
theorem advancesPc_advance (hrun : s.run = .running) (len : Nat) : s.advancesPc (s.advance len) len := by
  rcases advance_cases s len with ⟨hlt, e⟩ | ⟨-, e⟩ <;> rw [e]
  · refine ⟨fun h => absurd hrun h, fun _ => ?_⟩
    exact Nat.mod_eq_of_lt hlt
  · exact advancesPc_withRun s (by simp) len

/-- An update that keeps `pc` and the run state, then the advance. -/
theorem advancesPc_of_update {u : State} (hpc : u.pc = s.pc) (hrun : u.run = .running) (len : Nat) :
    s.advancesPc (u.advance len) len := by
  have h := advancesPc_advance hrun len
  rwa [State.advancesPc, hpc] at h

theorem advancesPc_loadInto (hrun : s.run = .running) (r : Reg) (addr : Addr) (len : Nat) :
    s.advancesPc (s.loadInto r addr len) len := by
  rcases loadInto_cases s r addr len with ⟨-, e⟩ | ⟨-, e⟩ <;> rw [e]
  · exact advancesPc_of_update (setReg_pc _ _ _) (by rwa [setReg_run]) len
  · exact advancesPc_withRun s (by simp) len

theorem advancesPc_storeFrom (hrun : s.run = .running) (r : Reg) (addr : Addr) (len : Nat) :
    s.advancesPc (s.storeFrom r addr len) len := by
  rcases storeFrom_cases s r addr len with ⟨-, e⟩ | ⟨-, e⟩ <;> rw [e]
  · exact advancesPc_of_update (u := { s with mem := s.mem.write addr.toNat (s.getReg r) }) rfl hrun len
  · exact advancesPc_withRun s (by simp) len

/-- A conditional jump: the target where the condition holds, the advance where it does not (R145, R96). -/
theorem pc_jumpIf (hrun : s.run = .running) (taken : Bool) (addr : Addr) (len : Nat) :
    ((s.jumpIf taken addr len).run ≠ .running → (s.jumpIf taken addr len).pc = s.pc) ∧
    ((s.jumpIf taken addr len).run = .running →
      if taken = true then (s.jumpIf taken addr len).pc = addr
      else (s.jumpIf taken addr len).pc.toNat = s.pc.toNat + len) := by
  rcases jumpIf_cases s taken addr len with ⟨rfl, e⟩ | ⟨rfl, e⟩ <;> rw [e]
  · exact ⟨fun h => absurd hrun h, fun _ => rfl⟩
  · exact advancesPc_advance hrun len

/-- Settles O26: each shape of `exec` ends in the advance, in a stop that keeps `pc`, or in a taken jump. -/
theorem pcAfterStepAsListed : Obligations.PcAfterStepAsListed := by
  intro s t i hrun hfetch h
  rw [step_of_fetchInstr hrun hfetch] at h
  rcases exec_cases s i with ⟨rfl, e⟩ | ⟨code, rfl, e⟩ | ⟨op, hi, e⟩ | ⟨q, addr, rfl, e⟩ | ⟨q, addr, rfl, e⟩ |
    ⟨addr, rfl, e⟩ | ⟨addr, condition, hi, e⟩
  all_goals rw [e] at h; obtain rfl := Host.Outcome.next.inj h
  · exact advancesPc_advance hrun 1
  · exact ⟨fun _ => rfl, fun h => nomatch h⟩
  · have hpc := advancesPc_of_update (s := s) (u := { s with regC := op s.regA s.regB }) rfl hrun 1
    rcases hi with ⟨rfl, -⟩ | ⟨rfl, -⟩ | ⟨rfl, -⟩ <;> exact hpc
  · cases q <;> exact advancesPc_loadInto hrun _ addr 5
  · cases q <;> exact advancesPc_storeFrom hrun _ addr 5
  · exact ⟨fun h => absurd hrun h, fun _ => rfl⟩
  · have hpc := pc_jumpIf hrun (condition s.regA s.regB) addr 5
    rcases hi with ⟨rfl, rfl⟩ | ⟨rfl, rfl⟩ | ⟨rfl, rfl⟩ | ⟨rfl, rfl⟩
    · simpa only [conditionEq, decide_eq_true_eq] using hpc
    · simpa only [conditionNeq, decide_eq_true_eq] using hpc
    · simpa only [conditionGt, decide_eq_true_eq] using hpc
    · simpa only [conditionLt, decide_eq_true_eq] using hpc

end Sys2Proof.Machine
end

section
/-! SUPPORT. The exits of a step, and what the output ports show of the run state. -/

namespace Sys2Proof.Machine

variable {s t : State}

theorem advance_run_ne_exited (hrun : s.run = .running) (len : Nat) (code : Byte) :
    (s.advance len).run ≠ .exited code := by
  rcases advance_cases s len with ⟨-, e⟩ | ⟨-, e⟩ <;> rw [e]
  · simp [hrun]
  · simp

/-- Of all instructions only Exit exits, with its own code (R101). -/
theorem exec_exits_iff {i : Instr} (hrun : s.run = .running) (h : exec i s = .next t) (code : Byte) :
    t.run = .exited code ↔ i = .exit code := by
  constructor
  · intro ht
    rcases exec_next_cases h with ⟨c, rfl, rfl⟩ | ⟨addr, r, -, -, rfl⟩ | ⟨addr, r, -, -, rfl⟩ |
      ⟨r, v, len, -, -, rfl⟩ | ⟨len, -, rfl⟩ | ⟨addr, rfl⟩
    · rw [RunState.exited.inj ht]
    · exact nomatch ht
    · exact absurd ht (advance_run_ne_exited (s := { s with mem := s.mem.write addr.toNat (s.getReg r) }) hrun 5 code)
    · exact absurd ht (advance_run_ne_exited (by rwa [setReg_run]) len code)
    · exact absurd ht (advance_run_ne_exited hrun len code)
    · exact absurd (hrun.symm.trans ht) (by simp)
  · rintro rfl
    obtain rfl := Host.Outcome.next.inj h
    rfl

/-- Settles O36: the exit is that of the fetched instruction, and `[0x01, code]` are the bytes of that Exit. -/
theorem exitsExactlyByExitInstruction : Obligations.ExitsExactlyByExitInstruction := by
  intro s t code hrun h
  change _ ↔ s.holdsAt s.pc.toNat (encode (.exit code)) = true
  rw [← fetchInstr_eq_ok_iff]
  rcases step_cases s with ⟨-, i, hfetch, e⟩ | ⟨-, f, hfetch, e⟩ | ⟨hstopped, -⟩
  · rw [exec_exits_iff hrun (e ▸ h), hfetch, Except.ok.injEq]
  · obtain rfl := Host.Outcome.next.inj (e ▸ h)
    simp [hfetch]
  · exact absurd hrun hstopped

/-! ## The output ports -/

/-- The ports of a faulted core show the kind and the payload of its fault (R25, R154). -/
theorem ports_faulted {f : ExecutionFault} (h : s.run = .faulted f) :
    s.statusPort = 2 ∧ s.exitCodePort = 0 ∧ s.faultKindPort = faultKindCode f ∧ s.faultInfoPort = faultInfoCode f := by
  simp [State.statusPort, State.exitCodePort, State.faultKindPort, State.faultInfoPort, h]

/-- The ports of an exited core show its code and no fault (R25). -/
theorem ports_exited {code : Byte} (h : s.run = .exited code) :
    s.statusPort = 1 ∧ s.exitCodePort = code ∧ s.faultKindPort = 0 ∧ s.faultInfoPort = 0 := by
  simp [State.statusPort, State.exitCodePort, State.faultKindPort, State.faultInfoPort, h]

/-- The ports of a running core are all 0 (R25). -/
theorem ports_running (h : s.run = .running) :
    s.statusPort = 0 ∧ s.exitCodePort = 0 ∧ s.faultKindPort = 0 ∧ s.faultInfoPort = 0 := by
  simp [State.statusPort, State.exitCodePort, State.faultKindPort, State.faultInfoPort, h]

/-- 33 bits hold every 32-bit address. -/
theorem toNat_setWidth_33 (addr : Addr) : (addr.setWidth 33).toNat = addr.toNat :=
  BitVec.toNat_setWidth_of_le (by decide)

/-- 33 bits hold every payload of a fetch fault: it is at most five above an address (R151, R154). -/
theorem toNat_faultInfoCode_fetch {pc : Addr} {a : Nat} (h : a ≤ pc.toNat + Config.longestInstruction) :
    (faultInfoCode (.fetchOutOfBounds a)).toNat = a := by
  have hpc := pc.isLt
  simp only [Config.longestInstruction] at h
  exact Nat.mod_eq_of_lt (by omega)

/-- Settles O45: the invariant explains the stop, so it bounds the payload and gives the byte at `pc`. -/
theorem portsReportRunState : Obligations.PortsReportRunState := by
  rintro s ⟨-, -, -, hstop⟩
  split
  next hrun => exact ports_running hrun
  next code hrun => exact ports_exited hrun
  next a hrun =>
    obtain ⟨hstatus, hcode, hkind, hinfo⟩ := ports_faulted hrun
    obtain ⟨-, -, ha⟩ := (stopExplained_fetchOutOfBounds_iff hrun).1 hstop
    exact ⟨hstatus, hcode, hkind, by rw [hinfo, toNat_faultInfoCode_fetch ha]⟩
  next p b hrun =>
    obtain ⟨hstatus, hcode, hkind, hinfo⟩ := ports_faulted hrun
    obtain ⟨rfl, hheld, hb⟩ := (stopExplained_illegalOpcode_iff hrun).1 hstop
    obtain ⟨-, hread, -⟩ := (holdsAt_cons_iff s _ b []).1 hheld
    exact ⟨hstatus, hcode, hkind, by rw [hinfo, faultInfoCode, toNat_setWidth_33], rfl, hread, hb⟩
  next addr hrun =>
    obtain ⟨hstatus, hcode, hkind, hinfo⟩ := ports_faulted hrun
    exact ⟨hstatus, hcode, hkind, by rw [hinfo, faultInfoCode, toNat_setWidth_33]⟩

end Sys2Proof.Machine
end

section
/-! SUPPORT. The bytes held in memory one by one, a store and what is read after it, and the accesses of a step: where
they are, in which order, and what they leave in memory. -/

namespace Sys2Proof.Machine

variable {s t : State}

/-! ## Bytes held in memory, one by one -/

/-- Of bytes held in memory, byte `k` is read `k` addresses after the first. -/
theorem read_of_holdsAt {a k : Nat} {bytes : List Byte} (h : s.holdsAt a bytes = true) (hk : k < bytes.length) :
    s.mem.read (a + k) = bytes[k] := by
  have hread := getElem?_bytesFrom s a bytes.length k
  rw [bytesFrom_of_holdsAt s h le_rfl, List.getElem?_append_left hk, List.getElem?_eq_getElem hk] at hread
  split at hread
  · exact (Option.some.inj hread).symm
  · exact nomatch hread

/-- Settles O6: the four bytes after the opcode byte are those of the address assembled from them, so the encoding of the
tag with that address stands at `pc`. -/
theorem addressOperandIsBigEndian : Obligations.AddressOperandIsBigEndian := by
  intro s t hformat hopcode hlen
  refine ⟨addressOfBytes _ _ _ _, ?_, addressOfBytes_toNat _ _ _ _⟩
  rw [fetchInstr_eq_ok_iff, encode_f5 hformat, bytesOfAddress_addressOfBytes]
  simp only [holdsAt_cons_iff]
  exact ⟨by omega, hopcode, by omega, trivial, by omega, trivial, by omega, trivial, by omega, trivial, rfl⟩

/-! ## A read after a store -/

/-- A store at a valid address leaves the register's byte in the cell, whatever the advance does. -/
theorem mem_storeFrom_of_lt {r : Reg} {addr : Addr} (len : Nat) (haddr : addr.toNat < s.memLen) :
    (s.storeFrom r addr len).mem = s.mem.write addr.toNat (s.getReg r) := by
  rcases storeFrom_cases s r addr len with ⟨-, e⟩ | ⟨hlen, -⟩
  · rw [e, advance_mem]
  · omega

theorem memLen_storeFrom (r : Reg) (addr : Addr) (len : Nat) : (s.storeFrom r addr len).memLen = s.memLen := by
  rcases storeFrom_cases s r addr len with ⟨-, e⟩ | ⟨-, e⟩ <;> rw [e]
  exact advance_memLen _ len

/-- A load at a valid address leaves the cell's byte in its register, whatever the advance does. -/
theorem getReg_loadInto_of_lt {q : Reg} {addr : Addr} (len : Nat) (haddr : addr.toNat < s.memLen) :
    (s.loadInto q addr len).getReg q = s.mem.read addr.toNat := by
  rcases loadInto_cases s q addr len with ⟨-, e⟩ | ⟨hlen, -⟩
  · rw [e, advance_getReg, getReg_setReg_same]
  · omega

theorem mem_loadInto (q : Reg) (addr : Addr) (len : Nat) : (s.loadInto q addr len).mem = s.mem := by
  rcases loadInto_cases s q addr len with ⟨-, e⟩ | ⟨-, e⟩ <;> rw [e]
  rw [advance_mem, setReg_mem]

/-- Settles O28: the store leaves the register's byte in the cell, and the load takes that cell's byte. -/
theorem storeThenLoadObservesStoredValue : Obligations.StoreThenLoadObservesStoredValue := by
  rintro s addr r q ⟨hwf, -⟩ haddr -
  refine ⟨_, _, exec_storeOf s addr r, exec_loadOf _ addr q, ?_⟩
  rw [getReg_loadInto_of_lt 5 (by rwa [memLen_storeFrom]), mem_storeFrom_of_lt 5 haddr, read_write_same _ _ _ hwf]

/-- An advance below `2^32` keeps the run state and goes on `len` bytes further, without wrap-around (R95). -/
theorem advance_next {len : Nat} (hnext : s.pc.toNat + len < Config.addressLimit) :
    (s.advance len).run = s.run ∧ (s.advance len).pc.toNat = s.pc.toNat + len := by
  rw [advance_of_lt s hnext]
  exact ⟨rfl, Nat.mod_eq_of_lt hnext⟩

/-- A store at a valid address that does not advance past `2^32 - 1` keeps the run state and goes on behind itself. -/
theorem storeFrom_next {r : Reg} {addr : Addr} {len : Nat} (haddr : addr.toNat < s.memLen)
    (hnext : s.pc.toNat + len < Config.addressLimit) :
    (s.storeFrom r addr len).run = s.run ∧ (s.storeFrom r addr len).pc.toNat = s.pc.toNat + len := by
  rcases storeFrom_cases s r addr len with ⟨-, e⟩ | ⟨hlen, -⟩
  · rw [e]
    exact advance_next hnext
  · omega

/-- Settles O29: the store's advance puts `pc` on its successor, and the window there reads the stored cell. -/
theorem storeIsSeenByNextFetch : Obligations.StoreIsSeenByNextFetch := by
  rintro s addr r k ⟨hwf, -, hlimit, -⟩ hrun hheld haddr hk hplace
  have hstep : step s = .next (s.storeFrom r addr 5) := by
    rw [step_of_fetchInstr hrun ((fetchInstr_eq_ok_iff _).2 hheld), exec_storeOf]
  obtain ⟨hrun', hpc⟩ := storeFrom_next (s := s) (r := r) (len := 5) haddr (by omega)
  refine ⟨_, hstep, hrun'.trans hrun, hpc, ?_⟩
  rw [State.fetchWindow, getElem?_bytesFrom, hpc, ← hplace, memLen_storeFrom, if_pos ⟨hk, haddr⟩,
    mem_storeFrom_of_lt 5 haddr, read_write_same _ _ _ hwf]

/-! ## The fetch accesses -/

@[simp] theorem length_fetchAccesses (n : Nat) : (s.fetchAccesses n).length = n := by
  simp [State.fetchAccesses]

theorem fetchAccesses_map_address (n : Nat) :
    (s.fetchAccesses n).map Access.address = (List.range n).map fun k => s.pc.toNat + k := by
  rw [State.fetchAccesses, List.map_map]
  rfl

/-- The opcode byte first, then operand bytes only (R43). -/
theorem fetchAccesses_map_kind (n : Nat) :
    (s.fetchAccesses (n + 1)).map Access.kind = .opcodeFetch :: List.replicate n .operandFetch := by
  rw [State.fetchAccesses, List.map_map, List.range_succ_eq_map, List.map_cons, List.map_map]
  refine congrArg _ (List.eq_replicate_iff.2 ⟨by simp, fun kind hkind => ?_⟩)
  obtain ⟨k, -, rfl⟩ := List.mem_map.1 hkind
  rfl

/-- The values that are fetched from bytes held at `pc` are those bytes. -/
theorem fetchAccesses_map_value {bytes : List Byte} (h : s.holdsAt s.pc.toNat bytes = true) :
    (s.fetchAccesses bytes.length).map Access.value = bytes := by
  refine List.ext_getElem (by simp) fun k _ hk => ?_
  simpa [State.fetchAccesses] using read_of_holdsAt h hk

/-- A fetch reads, from `pc` on, and writes nothing. -/
theorem mem_fetchAccesses {n : Nat} {x : Access} (h : x ∈ s.fetchAccesses n) :
    (∃ k, k < n ∧ x.address = s.pc.toNat + k) ∧ x.kind ≠ .dataWrite := by
  obtain ⟨k, hk, rfl⟩ := List.mem_map.1 h
  refine ⟨⟨k, List.mem_range.1 hk, rfl⟩, ?_⟩
  dsimp only
  split <;> simp

/-! ## The data accesses -/

theorem dataAccesses_loadOf (addr : Addr) (r : Reg) :
    s.dataAccesses (Instr.loadOf addr r) =
      if addr.toNat < s.memLen then [⟨.dataRead, addr.toNat, s.mem.read addr.toNat⟩] else [] := by
  cases r <;> simp [Instr.loadOf, State.dataAccesses, State.readAccess, effectiveAddress, inBounds_iff]

theorem dataAccesses_storeOf (addr : Addr) (r : Reg) :
    s.dataAccesses (Instr.storeOf addr r) =
      if addr.toNat < s.memLen then [⟨.dataWrite, addr.toNat, s.getReg r⟩] else [] := by
  cases r <;> simp [Instr.storeOf, State.dataAccesses, State.writeAccess, effectiveAddress, inBounds_iff]

/-- Every instruction is a load, a store, or one without a data access (R33). -/
theorem dataAccesses_cases (s : State) (i : Instr) :
    (∃ addr r, i = Instr.loadOf addr r) ∨ (∃ addr r, i = Instr.storeOf addr r) ∨ s.dataAccesses i = [] := by
  cases i with
  | loadA addr => exact .inl ⟨addr, .A, rfl⟩
  | loadB addr => exact .inl ⟨addr, .B, rfl⟩
  | loadC addr => exact .inl ⟨addr, .C, rfl⟩
  | storeA addr => exact .inr (.inl ⟨addr, .A, rfl⟩)
  | storeB addr => exact .inr (.inl ⟨addr, .B, rfl⟩)
  | storeC addr => exact .inr (.inl ⟨addr, .C, rfl⟩)
  | nop | exit | add | subtract | multiply | jump | jeq | jneq | jgt | jlt => exact .inr (.inr rfl)

theorem dataAccesses_address_lt {i : Instr} {x : Access} (h : x ∈ s.dataAccesses i) : x.address < s.memLen := by
  rcases dataAccesses_cases s i with ⟨addr, r, rfl⟩ | ⟨addr, r, rfl⟩ | e
  · rw [dataAccesses_loadOf, List.mem_ite_nil_right, List.mem_singleton] at h
    obtain ⟨haddr, rfl⟩ := h
    exact haddr
  · rw [dataAccesses_storeOf, List.mem_ite_nil_right, List.mem_singleton] at h
    obtain ⟨haddr, rfl⟩ := h
    exact haddr
  · simp [e] at h

/-! ## The accesses of a step -/

theorem length_encode (i : Instr) : (encode i).length = i.length := by
  cases i <;> rfl

theorem length_encode_pos (i : Instr) : 0 < (encode i).length := by
  cases i <;> exact Nat.zero_lt_succ _

/-- The bytes of the fetched instruction, then its data access (R43). -/
theorem stepAccesses_of_fetchInstr {i : Instr} (hrun : s.run = .running) (h : s.fetchInstr = .ok i) :
    s.stepAccesses = s.fetchAccesses (encode i).length ++ s.dataAccesses i := by
  rcases fetchInstr_cases s with ⟨j, rest, hdecode, e⟩ | ⟨b, -, e⟩ | ⟨k, -, e⟩
  · obtain rfl : j = i := by simpa [e] using h
    simp [State.stepAccesses, hrun, hdecode, length_encode]
  · simp [e] at h
  · simp [e] at h

/-- Of an instruction that cannot be fetched, only bytes inside the window are read (R57, R93). -/
theorem stepAccesses_of_fetchInstr_error {f : ExecutionFault} (hrun : s.run = .running) (h : s.fetchInstr = .error f) :
    ∃ n, n ≤ s.fetchWindow.length ∧ s.stepAccesses = s.fetchAccesses n := by
  rcases fetchInstr_cases s with ⟨i, rest, -, e⟩ | ⟨b, hdecode, -⟩ | ⟨k, hdecode, -⟩
  · simp [e] at h
  · obtain ⟨rest, hwindow, -⟩ := eq_cons_of_decode_illegal hdecode
    exact ⟨1, by simp [hwindow], by simp [State.stepAccesses, hrun, hdecode]⟩
  · exact ⟨k, (length_of_decode_truncated hdecode).1.le, by simp [State.stepAccesses, hrun, hdecode]⟩

theorem stepAccesses_of_stopped (h : s.run ≠ .running) : s.stepAccesses = [] := by
  unfold State.stepAccesses
  split
  next hrun => exact absurd hrun h
  all_goals rfl

/-- The fetch of no more bytes than the window has stays inside memory. -/
theorem fetchAccesses_address_lt {n : Nat} {x : Access} (hn : n ≤ s.fetchWindow.length) (h : x ∈ s.fetchAccesses n) :
    x.address < s.memLen := by
  obtain ⟨⟨k, hk, haddress⟩, -⟩ := mem_fetchAccesses h
  rw [length_fetchWindow] at hn
  omega

/-- The bytes of a fetched instruction lie inside the window. -/
theorem length_encode_le_fetchWindow {i : Instr} (h : s.fetchInstr = .ok i) :
    (encode i).length ≤ s.fetchWindow.length := by
  have hwindow : s.fetchWindow = encode i ++ _ :=
    bytesFrom_of_holdsAt s ((fetchInstr_eq_ok_iff i).1 h) (length_encode_le i)
  rw [hwindow, List.length_append]
  exact Nat.le_add_right _ _

/-- Settles O30: a fetched byte lies in the window, and a data access is made only below `MEMLEN`. -/
theorem accessesAreInBounds : Obligations.AccessesAreInBounds := by
  intro s x hx
  rcases step_cases s with ⟨hrun, i, hfetch, -⟩ | ⟨hrun, f, hfetch, -⟩ | ⟨hstopped, -⟩
  · rw [stepAccesses_of_fetchInstr hrun hfetch] at hx
    rcases List.mem_append.1 hx with hx | hx
    · exact fetchAccesses_address_lt (length_encode_le_fetchWindow hfetch) hx
    · exact dataAccesses_address_lt hx
  · obtain ⟨n, hn, e⟩ := stepAccesses_of_fetchInstr_error hrun hfetch
    exact fetchAccesses_address_lt hn (e ▸ hx)
  · simp [stepAccesses_of_stopped hstopped] at hx

/-- Settles O31: the accesses are the fetch of the instruction's own bytes, which stand at `pc`, and then its data
access. -/
theorem accessesFollowTable : Obligations.AccessesFollowTable := by
  intro s i hrun hfetch
  rw [stepAccesses_of_fetchInstr hrun hfetch, List.take_left' (length_fetchAccesses _),
    List.drop_left' (length_fetchAccesses _)]
  have hheld := (fetchInstr_eq_ok_iff i).1 hfetch
  refine ⟨fetchAccesses_map_address _, fetchAccesses_map_value hheld, ?_, fun hother => ?_, ?_, ?_⟩
  · rw [← fetchAccesses_map_kind, Nat.sub_add_cancel (length_encode_pos i)]
  · rcases dataAccesses_cases s i with ⟨addr, r, hi⟩ | ⟨addr, r, hi⟩ | e
    · exact absurd hi (hother addr r).1
    · exact absurd hi (hother addr r).2
    · exact e
  · rintro addr r rfl
    exact dataAccesses_loadOf addr r
  · rintro addr r rfl
    exact dataAccesses_storeOf addr r

/-! ## Memory after the accesses -/

theorem afterAccess_of_ne_dataWrite {x : Access} (h : x.kind ≠ .dataWrite) (m : Memory) : m.afterAccess x = m := by
  unfold Memory.afterAccess
  split
  next hkind => exact absurd hkind h
  all_goals rfl

/-- Accesses that write nothing leave memory as it is (R35). -/
theorem foldl_afterAccess_of_no_write {xs : List Access} (h : ∀ x ∈ xs, x.kind ≠ .dataWrite) (m : Memory) :
    xs.foldl Memory.afterAccess m = m := by
  induction xs with
  | nil => rfl
  | cons x xs ih =>
    rw [List.foldl_cons, afterAccess_of_ne_dataWrite (h x List.mem_cons_self)]
    exact ih fun y hy => h y (List.mem_cons_of_mem x hy)

theorem foldl_fetchAccesses (n : Nat) (m : Memory) : (s.fetchAccesses n).foldl Memory.afterAccess m = m :=
  foldl_afterAccess_of_no_write (fun _ hx => (mem_fetchAccesses hx).2) m

/-- A load writes nothing, a store its one cell, and an instruction without a data access nothing (R33, R39). -/
theorem exec_mem_eq_foldl {i : Instr} (h : exec i s = .next t) :
    t.mem = (s.dataAccesses i).foldl Memory.afterAccess s.mem := by
  rcases dataAccesses_cases s i with ⟨addr, r, rfl⟩ | ⟨addr, r, rfl⟩ | hnone
  · obtain rfl := Host.Outcome.next.inj ((exec_loadOf s addr r).symm.trans h)
    rw [dataAccesses_loadOf, mem_loadInto]
    split <;> rfl
  · obtain rfl := Host.Outcome.next.inj ((exec_storeOf s addr r).symm.trans h)
    rw [dataAccesses_storeOf]
    rcases storeFrom_cases s r addr 5 with ⟨haddr, e⟩ | ⟨haddr, e⟩
    · rw [if_pos haddr, e, advance_mem]
      rfl
    · rw [if_neg (Nat.not_lt.2 haddr), e]
      rfl
  · rw [hnone]
    obtain ⟨-, hmem | ⟨addr, r, rfl, haddr, -⟩⟩ := exec_mem_cases h
    · exact hmem
    · simp [dataAccesses_storeOf, haddr] at hnone

/-- Settles O32: the fetch writes nothing, so memory changes by the data access alone. -/
theorem accessesAccountForMemory : Obligations.AccessesAccountForMemory := by
  intro s t h
  rcases step_cases s with ⟨hrun, i, hfetch, e⟩ | ⟨hrun, f, hfetch, e⟩ | ⟨hstopped, e⟩ <;> rw [e] at h
  · rw [stepAccesses_of_fetchInstr hrun hfetch, List.foldl_append, foldl_fetchAccesses, exec_mem_eq_foldl h]
  · obtain rfl := Host.Outcome.next.inj h
    obtain ⟨n, -, e⟩ := stepAccesses_of_fetchInstr_error hrun hfetch
    rw [e, foldl_fetchAccesses]
  · obtain rfl := Host.Outcome.next.inj h
    rw [stepAccesses_of_stopped hstopped, List.foldl_nil]

end Sys2Proof.Machine
end

section
/-! SUPPORT. Decoder and encoder as the spec's opcode table states them: the opcode map, the lengths, the bytes of each
family; and the step where an instruction's bytes stand at `pc`. -/

namespace Sys2Proof

/-! ## The decoder and the encoder -/

/-- Settles O1, by the three formats of R50. -/
theorem decodeInvertsEncode : Obligations.DecodeInvertsEncode :=
  decode_encode_append

/-- Settles O2: the operand decoder takes each operand byte whole, and the encoder writes it back. -/
theorem encodeInvertsDecode : Obligations.EncodeInvertsDecode :=
  fun _ _ _ h => eq_encode_append_of_decode h

/-- Byte 0 of every instruction is the opcode byte of its tag (R51 to R53). -/
theorem encode_eq_cons (i : Instr) : ∃ operand, encode i = i.opcode.byte :: operand := by
  rcases instr_forms i with ⟨t, hf, rfl⟩ | ⟨t, imm8, hf, rfl⟩ | ⟨t, addr, hf, rfl⟩
  · exact ⟨[], by rw [encode_f1 hf, opcode_withOperand]⟩
  · exact ⟨[imm8], by rw [encode_f2 hf, opcode_withOperand]⟩
  · exact ⟨bytesOfAddress addr, by rw [encode_f5 hf, opcode_withOperand]⟩

/-- What decodes to an instruction begins with its opcode byte, and what is left over is behind the number of bytes that
its opcode takes (R59). -/
theorem opcodeOf_and_length_of_decode {b : Byte} {rest rest' : List Byte} {i : Instr}
    (h : decode (b :: rest) = .instr i rest') :
    opcodeOf b = some i.opcode ∧ (b :: rest).length = i.opcode.length + rest'.length := by
  have hbytes : b :: rest = encode i ++ rest' := eq_encode_append_of_decode h
  constructor
  · obtain ⟨operand, hencode⟩ := encode_eq_cons i
    rw [hencode, List.cons_append] at hbytes
    rw [(List.cons.inj hbytes).1, opcodeOf_byte]
  · rw [hbytes, List.length_append, Machine.length_encode, Instr.length]

/-- Settles O4: the lengths tag by tag, and the bytes taken as those of the decoded instruction's encoding. -/
theorem opcodeByteTellsLength : Obligations.OpcodeByteTellsLength := by
  refine ⟨fun t => ?_, fun _ _ _ _ h => opcodeOf_and_length_of_decode h, fun _ rest h => decode_illegal h rest⟩
  cases t <;> rfl

/-- Settles O3: the map and its inverse compose to the identity on either side, and the opcodes are the bytes below 16. -/
theorem opcodeMapIsBijection : Obligations.OpcodeMapIsBijection := by
  refine ⟨rfl, by decide, fun t => ⟨mem_all t, opcodeOf_byte t⟩, fun _ _ h => byte_of_opcodeOf h, fun b => ?_,
    fun b rest h => decode_illegal ((opcodeOf_eq_none_iff b).2 h) rest⟩
  rw [opcodeOf_isSome_iff, opcodeByteWellFormed, decide_eq_true_iff, Nat.lt_succ_iff]

/-- Settles O5: the samples of instructions are their encodings, by evaluating the encoder. -/
theorem sampleBytesDecode : Obligations.SampleBytesDecode :=
  ⟨decode_encode_append .nop [],
    decode_encode_append (.exit 0xFF) [],
    decode_encode_append .subtract [0x10],
    decode_encode_append (.loadA 256) [],
    decode_encode_append (.storeB 0x12345678) [],
    decode_encode_append (.jlt 2147483648) [],
    decode_illegal ((opcodeOf_eq_none_iff 0x10).2 (by decide)) [0x00],
    decode_opcode (opcodeOf_byte .jump) [0x00, 0x00]⟩

end Sys2Proof

namespace Sys2Proof.Machine

variable {s : State}

/-! ## The step on the bytes at `pc` -/

/-- The fetch answers what the decoder finds in the window (R61). -/
theorem fetchInstr_of_decode {i : Instr} {rest : List Byte} (h : decode s.fetchWindow = .instr i rest) :
    s.fetchInstr = .ok i := by
  simp [State.fetchInstr, h]

/-- Settles O8: what the window decodes to is what is fetched and run. -/
theorem stepRunsDecodedInstruction : Obligations.StepRunsDecodedInstruction :=
  fun _ _ _ hrun hdecode => step_of_fetchInstr hrun (fetchInstr_of_decode hdecode)

/-- Settles O9: the bytes that stand at `pc` are what is fetched. -/
theorem stepRunsInstructionInMemory : Obligations.StepRunsInstructionInMemory :=
  fun _ i hrun hheld => step_of_fetchInstr hrun ((fetchInstr_eq_ok_iff i).2 hheld)

/-- Settles O7: the byte of Exit and the byte after it are the encoding of Exit with that byte as its code. -/
theorem exitImmediateIsNextByte : Obligations.ExitImmediateIsNextByte := by
  intro s hrun hopcode hlen
  have hheld : s.holdsAt s.pc.toNat (encode (.exit (s.mem.read (s.pc.toNat + 1)))) = true := by
    simp only [encode, holdsAt_cons_iff]
    exact ⟨by omega, hopcode, hlen, trivial, rfl⟩
  have hfetch := (fetchInstr_eq_ok_iff _).2 hheld
  exact ⟨hfetch, s.exitWith _, step_of_fetchInstr hrun hfetch, exitWith_run s _⟩

end Sys2Proof.Machine
end

section
/-! SUPPORT. The image the assembler makes: the layout of a linked image, where each token of the code stands, what the
labels are bound to; and the two failures, of an undeclared label and of a program without a header. -/

namespace Sys2Proof.Machine

variable {p : Program} {labels : List (Text × Nat)} {image : List Byte}

/-! ## Layout -/

/-- The code takes what its sections take together (R81, R82). -/
theorem sectionSize_flatMap (code : List Section) :
    sectionSize (code.flatMap fun c => c.tokens) = (code.map fun c => sectionSize c.tokens).sum := by
  induction code with
  | nil => rfl
  | cons c code ih => simpa [sectionSize] using ih

/-- Settles O46: the layout is what the linker put together, and each token took the bytes that its size says. -/
theorem linkedImageLayout : Obligations.LinkedImageLayout := by
  intro p image h
  obtain ⟨-, hstart, code, hcode, himage⟩ := link_ok h
  exact ⟨hstart, code, himage, hcode, (length_emitTokens hcode).trans (sectionSize_flatMap p.code)⟩

/-! ## Tokens -/

/-- From the place of a token on, a linked image holds the bytes that the token is emitted as (R84). -/
theorem drop_of_link {before after : List Token} {tok : Token} (h : link p = .ok image)
    (hcode : p.codeTokens = before ++ tok :: after) :
    ∃ bytes rest, emitToken p.labels tok = .ok bytes ∧
      image.drop (5 + p.data.length + (before.map tokenSize).sum) = bytes ++ rest := by
  obtain ⟨-, -, code, hemit, rfl⟩ := link_ok h
  rw [hcode] at hemit
  obtain ⟨first, more, hfirst, hmore, rfl⟩ := emitTokens_append_ok hemit
  obtain ⟨bytes, rest, hbytes, -, rfl⟩ := emitTokens_cons_ok hmore
  refine ⟨bytes, rest, hbytes, ?_⟩
  have hlen : (encode (.jump (BitVec.ofNat 32 p.codeStart)) ++ p.data.map Prod.snd ++ first).length =
      5 + p.data.length + (before.map tokenSize).sum := by
    simp only [List.length_append, List.length_map, length_emitTokens hfirst, sectionSize]
    rfl
  rw [← List.append_assoc, List.drop_left' hlen]

/-- A labelled token is emitted only with a 32-bit address that its label is bound to (R84, R85). -/
theorem emitToken_labelled_ok {t : Opcode} {label line : Text} {bytes : List Byte}
    (h : emitToken labels (.labelled t label line) = .ok bytes) :
    ∃ a, lookupLabel labels label = some a ∧ a < 4294967296 ∧ bytes = encode (t.withOperand 0 (BitVec.ofNat 32 a)) := by
  simp only [emitToken] at h
  split at h
  · next a ha =>
    rcases emitAddressed_cases t a with ⟨hlt, e⟩ | ⟨-, e⟩ <;> rw [e] at h <;> cases h
    exact ⟨a, ha, hlt, rfl⟩
  · cases h

theorem length_withOperand (t : Opcode) (imm8 : Byte) (addr : Addr) : (t.withOperand imm8 addr).length = t.length := by
  rw [Instr.length, opcode_withOperand]

/-- An encoded instruction that stands at `place` decodes to itself, and what is left over is behind its length (R61). -/
theorem decode_drop {place : Nat} {i : Instr} {rest : List Byte} (h : image.drop place = encode i ++ rest) :
    decode (image.drop place) = .instr i (image.drop (place + i.length)) := by
  rw [← List.drop_drop, h, List.drop_left' (length_encode i), decode_encode_append]

/-- Settles O47: the bytes that a token is emitted as stand at its place, by cases on the token. -/
theorem linkedTokensDecode : Obligations.LinkedTokensDecode := by
  intro p image before after tok h hcode
  obtain ⟨bytes, rest, hemit, hdrop⟩ := drop_of_link h hcode
  cases tok with
  | ignore => rfl
  | data name value =>
    cases hemit
    exact List.head?_drop.symm.trans (congrArg List.head? hdrop)
  | plain t =>
    cases hemit
    simpa only [length_withOperand] using decode_drop hdrop
  | exitWith code =>
    cases hemit
    exact decode_drop hdrop
  | labelled t label line =>
    obtain ⟨a, ha, hlt, rfl⟩ := emitToken_labelled_ok hemit
    exact ⟨a, ha, hlt, by simpa only [length_withOperand] using decode_drop hdrop⟩

/-! ## Labels -/

/-- In a linked program every name is bound to the one address it is listed with (R85). -/
theorem lookupLabel_of_link {name : Text} {a : Nat} (h : link p = .ok image) (hmem : (name, a) ∈ p.labels) :
    lookupLabel p.labels name = some a := by
  obtain ⟨hdup, -⟩ := link_ok h
  obtain ⟨pre, post, hlabels⟩ := List.append_of_mem hmem
  rw [hlabels] at hdup ⊢
  exact lookupLabel_of_no_duplicate hdup

/-- The `i`-th declaration is listed at the `i`-th address from the first on (R83). -/
theorem mem_dataLabels {data : List (Text × Byte)} {i : Nat} {name : Text} {value : Byte}
    (h : data[i]? = some (name, value)) (start : Nat) : (name, start + i) ∈ dataLabels start data := by
  induction data generalizing i start with
  | nil => simp at h
  | cons d data ih =>
    cases i with
    | zero =>
      obtain rfl : d = (name, value) := by simpa using h
      exact List.mem_cons_self
    | succ i =>
      have hrest := ih (by simpa using h) (start + 1)
      rw [Nat.add_right_comm, Nat.add_assoc] at hrest
      exact List.mem_cons_of_mem _ hrest

/-- A section is listed behind the sizes of the sections before it (R82). -/
theorem mem_codeLabels (before after : List Section) (c : Section) (start : Nat) :
    (c.name, start + (before.map fun b => sectionSize b.tokens).sum) ∈ codeLabels start (before ++ c :: after) := by
  induction before generalizing start with
  | nil => exact List.mem_cons_self
  | cons b before ih =>
    have hrest := ih (start + sectionSize b.tokens)
    rw [Nat.add_assoc] at hrest
    exact List.mem_cons_of_mem _ hrest

/-- The data bytes follow the five bytes of the leading jump in declaration order (R37, R84). -/
theorem getElem?_of_link {i : Nat} {name : Text} {value : Byte} (h : link p = .ok image)
    (hi : p.data[i]? = some (name, value)) : image[5 + i]? = some value := by
  obtain ⟨-, -, code, -, rfl⟩ := link_ok h
  have hjump : (encode (.jump (BitVec.ofNat 32 p.codeStart))).length = 5 := rfl
  have hdata : (p.data.map Prod.snd)[i]? = some value := by simp [hi]
  obtain ⟨hlt, -⟩ := List.getElem?_eq_some_iff.1 hdata
  rw [List.append_assoc, List.getElem?_append_right (by omega), hjump, Nat.add_sub_cancel_left,
    List.getElem?_append_left hlt, hdata]

/-- Settles O50: the declaration's label is listed at `5 + i`, and a linked program binds no name twice. -/
theorem dataLabelPointsAtItsByte : Obligations.DataLabelPointsAtItsByte := fun _ _ _ _ _ h hi =>
  ⟨lookupLabel_of_link h (List.mem_append_left _ (mem_dataLabels hi 5)), getElem?_of_link h hi⟩

/-- Settles O51: the section's label is listed behind the sizes before it, and a linked program binds no name twice. -/
theorem codeLabelCountsSectionsBefore : Obligations.CodeLabelCountsSectionsBefore := by
  intro p image before after c h hcode
  refine lookupLabel_of_link h (List.mem_append_right _ ?_)
  rw [hcode]
  exact mem_codeLabels before after c p.codeStart

/-! ## Failures -/

/-- A token that is not emitted ends the run of tokens with its error. -/
theorem emitTokens_cons_error {t : Token} {e : AsmError} (h : emitToken labels t = .error e) (rest : List Token) :
    emitTokens labels (t :: rest) = .error e := by
  simp [emitTokens, h]

/-- An error of the code's tokens is the linker's answer, where no name is bound twice. -/
theorem link_of_emitTokens_error {e : AsmError} (hdup : duplicateIn p.labels = none)
    (h : emitTokens p.labels p.codeTokens = .error e) : link p = .error e := by
  simp [link, hdup, h]

/-- Settles O48: the labelled token is the first that is not emitted, and the first error is the answer. -/
theorem unresolvedLabelFailsLink : Obligations.UnresolvedLabelFailsLink := by
  intro p before after t label line bytes hdup hcode hbefore hlookup
  have htoken : emitToken p.labels (.labelled t label line) = .error (.unresolvedLabel label t line) := by
    simp [emitToken, hlookup]
  apply link_of_emitTokens_error hdup
  rw [Program.codeTokens, hcode]
  exact emitTokens_append_error hbefore (emitTokens_cons_error htoken after)

/-- Lines of which none may be a header make no program (R80). -/
theorem assemble_of_no_header {lines : List Text} (h : ∀ raw ∈ lines, mayBeHeader raw = false) :
    assemble lines = .error .noSectionHeader := by
  have hany : lines.any mayBeHeader = false := by simpa using h
  simp [assemble, splitSections, hany]

/-- Settles O49: none of the lines may be a header. -/
theorem programWithoutHeaderIsInvalid : Obligations.ProgramWithoutHeaderIsInvalid :=
  fun _ h => assemble_of_no_header fun raw hraw => (mayBeHeader_eq_false_iff raw).2 (h raw hraw)

end Sys2Proof.Machine
end

section
/-! SUPPORT. The execution cycle: every step answers a next state, what the fetch does where bytes are missing, the
advance past the top, runs of a stopped core and the runner with fuel. -/

namespace Sys2Proof.Machine

variable {s t u : State}

/-! ## Every step answers a next state -/

theorem exec_isNext (i : Instr) (s : State) : ∃ t, exec i s = .next t := by
  rcases exec_cases s i with ⟨-, e⟩ | ⟨_, -, e⟩ | ⟨_, -, e⟩ | ⟨_, _, -, e⟩ | ⟨_, _, -, e⟩ | ⟨_, -, e⟩ | ⟨_, _, -, e⟩
  all_goals exact ⟨_, e⟩

/-- Settles O15: `exec` is total, a fetch fault is a next state, and a stopped core stays as it is. -/
theorem stepIsTotal : Obligations.StepIsTotal := by
  intro s
  rcases step_cases s with ⟨-, i, -, e⟩ | ⟨-, f, -, e⟩ | ⟨-, e⟩
  · rw [e]
    exact exec_isNext i s
  · exact ⟨_, e⟩
  · exact ⟨s, e⟩

/-! ## The fetch where bytes are missing -/

/-- A running core whose fetch faults takes that fault, and nothing else happens (R91 to R93, R156). -/
theorem step_of_fetchInstr_error {f : ExecutionFault} (hrun : s.run = .running) (h : s.fetchInstr = .error f) :
    step s = .next { s with run := .faulted f } := by
  simp [step, hrun, h, State.takeFault]

/-- The fault of a missing byte names its address (R93). -/
theorem fetchInstr_of_truncated {k : Nat} (h : decode s.fetchWindow = .truncated k) :
    s.fetchInstr = .error (.fetchOutOfBounds (s.pc.toNat + k)) := by
  simp [State.fetchInstr, h]

/-- Settles O11: at an invalid `pc` the window is empty, and at a valid one it begins with the byte there. -/
theorem opcodeFetchIsBoundsChecked : Obligations.OpcodeFetchIsBoundsChecked := by
  intro s hrun
  refine ⟨fun hpc => ?_, fun hpc => ⟨_, fetchWindow_of_lt s hpc⟩⟩
  have hdecode : decode s.fetchWindow = .truncated 0 := by rw [fetchWindow_of_ge s hpc, decode_nil]
  exact step_of_fetchInstr_error hrun (fetchInstr_of_truncated hdecode)

/-- An instruction longer than the bytes there are is refused at the first byte missing, whatever its opcode. -/
theorem decodeOperand_of_length_lt {t : Opcode} {rest : List Byte} (h : 1 + rest.length < t.length) :
    decodeOperand t rest = .truncated (1 + rest.length) := by
  rcases decodeOperand_cases t rest with ⟨hf, -⟩ | ⟨hf, _, _, rfl, -⟩ | ⟨hf, _, _, _, _, _, rfl, -⟩ | ⟨-, e⟩
  · simp [Opcode.length, hf, Format.length] at h
  · simp [Opcode.length, hf, Format.length] at h
  · simp [Opcode.length, hf, Format.length] at h
    omega
  · exact e

/-- Settles O13: the window ends at `MEMLEN`, before the instruction does. -/
theorem truncatedInstructionFaults : Obligations.TruncatedInstructionFaults := by
  intro s t hrun hpc hopcode hlen
  have hshort : t.length ≤ 5 := by cases t <;> decide
  have hrest : 1 + (s.bytesFrom (s.pc.toNat + 1) 4).length = s.memLen - s.pc.toNat := by
    rw [length_bytesFrom]
    omega
  have hdecode : decode s.fetchWindow = .truncated (s.memLen - s.pc.toNat) := by
    rw [fetchWindow_of_lt s hpc, decode_opcode hopcode, decodeOperand_of_length_lt (by omega), hrest]
  rw [step_of_fetchInstr_error hrun (fetchInstr_of_truncated hdecode), Nat.add_sub_of_le hpc.le]

/-! ## The advance past the top -/

/-- An advance past `2^32 - 1` faults and leaves `pc` and all else as it is (R95, R15). -/
theorem advance_pastTop {len : Nat} (h : 4294967296 ≤ s.pc.toNat + len) :
    s.advance len = { s with run := .faulted (.fetchOutOfBounds (s.pc.toNat + len)) } :=
  advance_of_ge s (Nat.not_lt.2 h)

theorem aluToC_pastTop {len : Nat} (h : 4294967296 ≤ s.pc.toNat + len) (op : Byte → Byte → Byte) :
    s.aluToC op len =
      { s with regC := op s.regA s.regB, run := .faulted (.fetchOutOfBounds (s.pc.toNat + len)) } :=
  advance_pastTop (s := { s with regC := op s.regA s.regB }) h

theorem loadInto_pastTop {len : Nat} {addr : Addr} (h : 4294967296 ≤ s.pc.toNat + len) (haddr : addr.toNat < s.memLen)
    (r : Reg) :
    s.loadInto r addr len =
      { s.setReg r (s.mem.read addr.toNat) with run := .faulted (.fetchOutOfBounds (s.pc.toNat + len)) } := by
  rcases loadInto_cases s r addr len with ⟨-, e⟩ | ⟨hlen, -⟩
  · rw [e]
    cases r <;> exact advance_pastTop (s := s.setReg _ _) h
  · omega

theorem storeFrom_pastTop {len : Nat} {addr : Addr} (h : 4294967296 ≤ s.pc.toNat + len) (haddr : addr.toNat < s.memLen)
    (r : Reg) :
    s.storeFrom r addr len =
      { s with
        mem := s.mem.write (effectiveAddress addr) (s.getReg r)
        run := .faulted (.fetchOutOfBounds (s.pc.toNat + len)) } := by
  rcases storeFrom_cases s r addr len with ⟨-, e⟩ | ⟨hlen, -⟩
  · rw [e]
    exact advance_pastTop (s := { s with mem := s.mem.write addr.toNat (s.getReg r) }) h
  · omega

theorem jumpIf_pastTop {len : Nat} {taken : Bool} (h : 4294967296 ≤ s.pc.toNat + len) (htaken : ¬ taken = true)
    (addr : Addr) :
    s.jumpIf taken addr len = { s with run := .faulted (.fetchOutOfBounds (s.pc.toNat + len)) } :=
  (if_neg htaken).trans (advance_pastTop h)

/-- Settles O22: each form that neither stops nor jumps is its effect and then the advance, which passes the top. -/
theorem advancePastTopFaultsAfterEffect : Obligations.AdvancePastTopFaultsAfterEffect := by
  intro s addr
  refine ⟨fun htop => ⟨?_, ?_, ?_, ?_⟩, fun htop => ⟨fun haddr r => ⟨?_, ?_⟩, fun hc => ?_, fun hc => ?_, fun hc => ?_,
    fun hc => ?_⟩⟩
  · exact congrArg _ (advance_pastTop htop)
  · rw [← aluAdd_eq]
    exact congrArg _ (aluToC_pastTop htop aluAdd)
  · rw [← aluSubtract_eq]
    exact congrArg _ (aluToC_pastTop htop aluSubtract)
  · rw [← aluMultiply_eq]
    exact congrArg _ (aluToC_pastTop htop aluMultiply)
  · rw [exec_loadOf, loadInto_pastTop htop haddr]
  · rw [exec_storeOf, storeFrom_pastTop htop haddr]
  · exact congrArg _ (jumpIf_pastTop htop (mt (conditionEq_iff _ _).1 hc) addr)
  · exact congrArg _ (jumpIf_pastTop htop (mt (conditionNeq_iff _ _).1 (not_not_intro hc)) addr)
  · exact congrArg _ (jumpIf_pastTop htop (mt (conditionGt_iff _ _).1 (Nat.not_lt.2 hc)) addr)
  · exact congrArg _ (jumpIf_pastTop htop (mt (conditionLt_iff _ _).1 (Nat.not_lt.2 hc)) addr)

/-! ## Runs -/

/-- A run of `n + 1` steps is a step and a run of `n`. -/
theorem runSteps_of_step (h : step s = .next t) (n : Nat) : runSteps (n + 1) s = runSteps n t := by
  rw [runSteps_succ, h]

theorem step_of_stopped (h : s.run ≠ .running) : step s = .next s := by
  rcases step_cases s with ⟨hrun, -⟩ | ⟨hrun, -⟩ | ⟨-, e⟩
  · exact absurd hrun h
  · exact absurd hrun h
  · exact e

/-- Settles O35, by induction on the number of steps. -/
theorem stoppedCoreStaysStopped : Obligations.StoppedCoreStaysStopped := by
  intro n s h
  induction n with
  | zero => exact runSteps_zero s
  | succ n ih => rw [runSteps_of_step (step_of_stopped h), ih]

/-! ## The runner with fuel -/

theorem runFuel_zero_of_running (h : s.run = .running) : runFuel 0 s = .fuelExhausted s := by
  simp [runFuel, h]

theorem runFuel_succ_of_running (h : s.run = .running) (hstep : step s = .next t) (fuel : Nat) :
    runFuel (fuel + 1) s = runFuel fuel t := by
  simp [runFuel, h, hstep]

theorem runFuel_of_exited {code : Byte} (h : s.run = .exited code) (fuel : Nat) : runFuel fuel s = .exited code s := by
  cases fuel <;> simp [runFuel, h]

theorem runFuel_of_faulted {f : ExecutionFault} (h : s.run = .faulted f) (fuel : Nat) :
    runFuel fuel s = .faulted f s := by
  cases fuel <;> simp [runFuel, h]

/-- What a state reaches in at most `fuel` steps, its predecessor reaches in at most one more. -/
theorem reached_of_step (hstep : step s = .next t) {fuel : Nat} (h : ∃ n, n ≤ fuel ∧ runSteps n t = .next u) :
    ∃ n, n ≤ fuel + 1 ∧ runSteps n s = .next u := by
  obtain ⟨n, hn, e⟩ := h
  exact ⟨n + 1, Nat.succ_le_succ hn, (runSteps_of_step hstep n).trans e⟩

/-- Settles O39, by induction on the fuel: a running core spends one unit of it on the next state, which always is; a
stopped one is reported after no step. -/
theorem runnerAgreesWithSteps : Obligations.RunnerAgreesWithSteps := by
  intro fuel
  induction fuel with
  | zero =>
    intro s
    cases hrun : s.run with
    | running => rw [runFuel_zero_of_running hrun]; exact ⟨hrun, rfl⟩
    | exited code => rw [runFuel_of_exited hrun]; exact ⟨hrun, 0, le_rfl, rfl⟩
    | faulted f => rw [runFuel_of_faulted hrun]; exact ⟨hrun, 0, le_rfl, rfl⟩
  | succ fuel ih =>
    intro s
    cases hrun : s.run with
    | running =>
      obtain ⟨t, hstep⟩ := stepIsTotal s
      have h := ih t
      rw [runFuel_succ_of_running hrun hstep]
      revert h
      cases runFuel fuel t with
      | exited code u => exact fun ⟨hu, hreached⟩ => ⟨hu, reached_of_step hstep hreached⟩
      | faulted f u => exact fun ⟨hu, hreached⟩ => ⟨hu, reached_of_step hstep hreached⟩
      | fuelExhausted u => exact fun ⟨hu, e⟩ => ⟨hu, (runSteps_of_step hstep fuel).trans e⟩
      | modelFault r => exact id
      | modelRefused r => exact id
    | exited code => rw [runFuel_of_exited hrun]; exact ⟨hrun, 0, Nat.zero_le _, rfl⟩
    | faulted f => rw [runFuel_of_faulted hrun]; exact ⟨hrun, 0, Nat.zero_le _, rfl⟩

end Sys2Proof.Machine
end

section
/-! SUPPORT. The step is the spec's pseudocode: the pseudocode's fetch, read byte by byte, answers what the decoder
finds in the window; then its effect and its advance are the instruction's meaning, one lemma for each range of opcodes. -/

namespace Sys2Proof.Machine

variable {s : State}

/-! ## The fetch, byte by byte -/

/-- Reading a byte of the window succeeds. -/
theorem pseudoFetchByte_of_some {k : Nat} {b : Byte} (h : s.fetchWindow[k]? = some b) :
    pseudoFetchByte s (s.pc.toNat + k) = .ok b := by
  rw [State.fetchWindow, getElem?_bytesFrom] at h
  split at h
  next hk => rw [pseudoFetchByte, if_neg (Nat.not_le.2 hk.2), Option.some.inj h]
  next => exact nomatch h

/-- Reading the first byte behind a window that is shorter than the longest instruction faults at its address. -/
theorem pseudoFetchByte_of_none {k : Nat} (hk : k < 5) (h : s.fetchWindow[k]? = none) :
    pseudoFetchByte s (s.pc.toNat + k) = .error (.fetchOutOfBounds (s.pc.toNat + k)) := by
  rw [State.fetchWindow, getElem?_bytesFrom] at h
  split at h
  next => exact nomatch h
  next hout =>
    have hlen : ¬ s.pc.toNat + k < s.memLen := fun hlt => hout ⟨hk, hlt⟩
    rw [pseudoFetchByte, if_pos (Nat.not_lt.1 hlen)]

/-- The byte at `pc` is the first of the window. -/
theorem pseudoFetchByte_pc {b : Byte} {rest : List Byte} (hwindow : s.fetchWindow = b :: rest) :
    pseudoFetchByte s s.pc.toNat = .ok b :=
  pseudoFetchByte_of_some (k := 0) (by rw [hwindow]; rfl)

/-- The bytes after the one at `pc` are the rest of the window. -/
theorem pseudoFetchByte_operand {b c : Byte} {rest : List Byte} {k : Nat} (hwindow : s.fetchWindow = b :: rest)
    (hk : rest[k]? = some c) : pseudoFetchByte s (s.pc.toNat + 1 + k) = .ok c := by
  rw [Nat.add_assoc, Nat.add_comm 1 k]
  exact pseudoFetchByte_of_some (by rw [hwindow]; exact hk)

theorem pseudoLen_byte (t : Opcode) : pseudoLen t.byte.toNat = t.length := by
  cases t <;> rfl

theorem pseudoLen_of_le {op : Nat} (h : 5 ≤ op) : pseudoLen op = 5 := by
  rw [pseudoLen, if_neg (by omega), if_neg (by omega)]

/-- A byte above 0x0F is refused before anything after it is read (R92). -/
theorem pseudoFetch_illegal {b : Byte} {p : Nat} (h : pseudoFetchByte s p = .ok b) (hb : 16 ≤ b.toNat) :
    pseudoFetch s p = .error (.illegalOpcode (BitVec.ofNat 32 p) b) := by
  rw [pseudoFetch, h]
  exact if_pos hb

/-- After an opcode byte the pseudocode goes by the opcode's length (R93). -/
theorem pseudoFetch_opcode {t : Opcode} {p : Nat} (h : pseudoFetchByte s p = .ok t.byte) :
    pseudoFetch s p =
      if t.length = 1 then .ok (t.byte.toNat, 0, 0)
      else if t.length = 2 then (pseudoFetchByte s (p + 1)).bind fun imm8 => .ok (t.byte.toNat, imm8, 0)
      else (pseudoFetchWord s (p + 1)).bind fun addr => .ok (t.byte.toNat, 0, addr) := by
  have hlegal : ¬ t.byte.toNat > 0x0F := Nat.not_lt.2 (Nat.le_of_lt_succ (byte_toNat_lt t))
  rw [pseudoFetch, h, ← pseudoLen_byte]
  exact if_neg hlegal

/-- Four readable bytes are the big-endian address the decoder assembles from them (R30). -/
theorem pseudoFetchWord_of_ok {a : Nat} {b3 b2 b1 b0 : Byte} (h3 : pseudoFetchByte s a = .ok b3)
    (h2 : pseudoFetchByte s (a + 1) = .ok b2) (h1 : pseudoFetchByte s (a + 2) = .ok b1)
    (h0 : pseudoFetchByte s (a + 3) = .ok b0) : pseudoFetchWord s a = .ok (addressOfBytes b3 b2 b1 b0) := by
  have haddress := addressOfBytes_toNat b3 b2 b1 b0
  rw [pseudoFetchWord, h3, h2, h1, h0, ← BitVec.setWidth_eq (addressOfBytes b3 b2 b1 b0), ← BitVec.ofNat_toNat,
    haddress]
  rfl

/-- The first of the four bytes that cannot be read is the fault (R93, R151). -/
theorem pseudoFetchWord_of_error {a k : Nat} {f : ExecutionFault} (hk : k < 4)
    (hok : ∀ j < k, ∃ b, pseudoFetchByte s (a + j) = .ok b) (herr : pseudoFetchByte s (a + k) = .error f) :
    pseudoFetchWord s a = .error f := by
  match k with
  | 0 => rw [pseudoFetchWord, show pseudoFetchByte s a = .error f from herr]; rfl
  | 1 =>
    obtain ⟨b3, h3⟩ := hok 0 (by decide)
    rw [pseudoFetchWord, show pseudoFetchByte s a = .ok b3 from h3, herr]; rfl
  | 2 =>
    obtain ⟨b3, h3⟩ := hok 0 (by decide)
    obtain ⟨b2, h2⟩ := hok 1 (by decide)
    rw [pseudoFetchWord, show pseudoFetchByte s a = .ok b3 from h3, h2, herr]; rfl
  | 3 =>
    obtain ⟨b3, h3⟩ := hok 0 (by decide)
    obtain ⟨b2, h2⟩ := hok 1 (by decide)
    obtain ⟨b1, h1⟩ := hok 2 (by decide)
    rw [pseudoFetchWord, show pseudoFetchByte s a = .ok b3 from h3, h2, h1, herr]; rfl

/-- Where bytes of the instruction are missing, the pseudocode faults at the first of them (R93). -/
theorem pseudoFetch_truncated {t : Opcode} {rest : List Byte} (hwindow : s.fetchWindow = t.byte :: rest)
    (hlen : 1 + rest.length < t.length) :
    pseudoFetch s s.pc.toNat = .error (.fetchOutOfBounds (s.pc.toNat + (1 + rest.length))) := by
  have hok : ∀ j < rest.length, ∃ b, pseudoFetchByte s (s.pc.toNat + 1 + j) = .ok b := fun j hj =>
    ⟨rest[j], pseudoFetchByte_operand hwindow (List.getElem?_eq_getElem hj)⟩
  have hlast : t.length ≤ 5 := by cases t <;> decide
  have herr := pseudoFetchByte_of_none (s := s) (k := 1 + rest.length) (by omega) (by simp [hwindow])
  rw [pseudoFetch_opcode (pseudoFetchByte_pc hwindow)]
  rcases length_cases t with ⟨-, hl⟩ | ⟨-, hl⟩ | ⟨-, hl⟩
  · omega
  · obtain rfl : rest = [] := List.length_eq_zero_iff.1 (by omega)
    rw [if_neg (by omega), if_pos hl, show pseudoFetchByte s (s.pc.toNat + 1) = _ from herr]
    rfl
  · rw [if_neg (by omega), if_neg (by omega),
      pseudoFetchWord_of_error (k := rest.length) (by omega) hok (by rw [Nat.add_assoc]; exact herr)]
    rfl

/-- The pseudocode's fetch and the model's: the same instruction, by its opcode's number and its operand, or the same
fault (R91 to R93). -/
theorem pseudoFetch_cases (s : State) :
    (∃ (t : Opcode) (imm8 : Byte) (addr : Addr), s.fetchInstr = .ok (t.withOperand imm8 addr) ∧
      pseudoFetch s s.pc.toNat = .ok (t.byte.toNat, imm8, addr)) ∨
    (∃ f, s.fetchInstr = .error f ∧ pseudoFetch s s.pc.toNat = .error f) := by
  rcases decode_cases s.fetchWindow with ⟨hw, e⟩ | ⟨b, rest, hw, hb, e⟩ | ⟨t, rest, hw, e⟩
  · have hread : pseudoFetchByte s s.pc.toNat = _ := pseudoFetchByte_of_none (k := 0) (by decide) (by rw [hw]; rfl)
    exact .inr ⟨_, fetchInstr_of_truncated e, by rw [pseudoFetch, hread]; rfl⟩
  · refine .inr ⟨.illegalOpcode s.pc b, by simp [State.fetchInstr, e], ?_⟩
    rw [pseudoFetch_illegal (pseudoFetchByte_pc hw) ((opcodeOf_eq_none_iff b).1 hb), BitVec.ofNat_toNat,
      BitVec.setWidth_eq]
  · have hop := pseudoFetch_opcode (pseudoFetchByte_pc hw)
    have hread {k : Nat} {b : Byte} (hk : rest[k]? = some b) := pseudoFetchByte_operand hw hk
    rcases decodeOperand_cases t rest with ⟨hf, e'⟩ | ⟨hf, imm8, rest', rfl, e'⟩ |
      ⟨hf, a3, a2, a1, a0, rest', rfl, e'⟩ | ⟨hlen, e'⟩
    · refine .inl ⟨t, 0, 0, fetchInstr_of_decode (e.trans e'), ?_⟩
      rw [hop, Opcode.length, hf]
      rfl
    · refine .inl ⟨t, imm8, 0, fetchInstr_of_decode (e.trans e'), ?_⟩
      rw [hop, Opcode.length, hf, hread (k := 0) rfl]
      rfl
    · refine .inl ⟨t, 0, addressOfBytes a3 a2 a1 a0, fetchInstr_of_decode (e.trans e'), ?_⟩
      rw [hop, Opcode.length, hf,
        pseudoFetchWord_of_ok (hread (k := 0) rfl) (hread (k := 1) rfl) (hread (k := 2) rfl) (hread (k := 3) rfl)]
      rfl
    · exact .inr ⟨_, fetchInstr_of_truncated (e.trans e'), pseudoFetch_truncated hw hlen⟩

/-! ## The step, by what was fetched -/

section Fetched

variable {op : Nat} {imm8 : Byte} {addr : Addr} (hfetch : pseudoFetch s s.pc.toNat = .ok (op, imm8, addr))
include hfetch

theorem pseudoStep_of_execute_error {f : ExecutionFault} (h : pseudoExecute op imm8 addr s = .error f) :
    pseudoStep s = { s with run := .faulted f } := by
  simp [pseudoStep, hfetch, h]

/-- An instruction that stops the core or writes `pc` ends the step (R95, R96). -/
theorem pseudoStep_of_end {t : State} {wrotePc : Bool} (h : pseudoExecute op imm8 addr s = .ok (t, wrotePc))
    (hend : t.run ≠ .running ∨ wrotePc = true) : pseudoStep s = t := by
  have hnoAdvance : ¬ (t.run = .running ∧ wrotePc = false) := by
    rintro ⟨hrun, rfl⟩
    simp [hrun] at hend
  simp [pseudoStep, hfetch, h, hnoAdvance]

/-- Any other effect leaves `pc`, and the advance follows it (R95). -/
theorem pseudoStep_of_advance {t : State} (h : pseudoExecute op imm8 addr s = .ok (t, false)) (hrun : t.run = .running)
    (hpc : t.pc = s.pc) : pseudoStep s = t.advance (pseudoLen op) := by
  have hadvance : pseudoStep s = pseudoAdvance t t.pc.toNat (pseudoLen op) := by
    simp [pseudoStep, hfetch, h, hrun, hpc]
  rw [hadvance]
  rcases advance_cases t (pseudoLen op) with ⟨hlt, e⟩ | ⟨hge, e⟩ <;> rw [e]
  · exact if_neg (Nat.not_le.2 hlt)
  · exact if_pos hge

/-! ## The effects, by the opcode's number -/

/-- Opcodes 5 to 7 are loads (R123). -/
theorem pseudoStep_load (hrun : s.run = .running) (hop : 5 ≤ op ∧ op ≤ 7) :
    pseudoStep s = s.loadInto (pseudoReg (op - 5)) addr 5 := by
  have hlen : pseudoLen op = 5 := pseudoLen_of_le (by omega)
  have hexec : pseudoExecute op imm8 addr s =
      if s.memLen ≤ addr.toNat then .error (.dataOutOfBounds addr)
      else .ok (s.setReg (pseudoReg (op - 5)) (s.mem.read addr.toNat), false) := by
    obtain ⟨h5, h7⟩ := hop
    interval_cases op <;> rfl
  rcases loadInto_cases s (pseudoReg (op - 5)) addr 5 with ⟨haddr, e⟩ | ⟨haddr, e⟩ <;> rw [e]
  · rw [if_neg (Nat.not_le.2 haddr)] at hexec
    rw [pseudoStep_of_advance hfetch hexec (by rwa [setReg_run]) (by rw [setReg_pc]), hlen]
  · rw [if_pos haddr] at hexec
    exact pseudoStep_of_execute_error hfetch hexec

/-- Opcodes 8 to 10 are stores (R133). -/
theorem pseudoStep_store (hrun : s.run = .running) (hop : 8 ≤ op ∧ op ≤ 10) :
    pseudoStep s = s.storeFrom (pseudoReg (op - 8)) addr 5 := by
  have hlen : pseudoLen op = 5 := pseudoLen_of_le (by omega)
  have hexec : pseudoExecute op imm8 addr s =
      if s.memLen ≤ addr.toNat then .error (.dataOutOfBounds addr)
      else .ok ({ s with mem := s.mem.write addr.toNat (s.getReg (pseudoReg (op - 8))) }, false) := by
    obtain ⟨h8, h10⟩ := hop
    interval_cases op <;> rfl
  rcases storeFrom_cases s (pseudoReg (op - 8)) addr 5 with ⟨haddr, e⟩ | ⟨haddr, e⟩ <;> rw [e]
  · rw [if_neg (Nat.not_le.2 haddr)] at hexec
    rw [pseudoStep_of_advance hfetch hexec hrun rfl, hlen]
  · rw [if_pos haddr] at hexec
    exact pseudoStep_of_execute_error hfetch hexec

/-- Opcodes 12 to 15 are conditional jumps (R145, R146). -/
theorem pseudoStep_jumpIf {c : Nat} (hrun : s.run = .running) (hop : op = c + 12) :
    pseudoStep s = s.jumpIf (pseudoCondition c s.regA.toNat s.regB.toNat) addr 5 := by
  have hlen : pseudoLen op = 5 := pseudoLen_of_le (by omega)
  have hexec : pseudoExecute op imm8 addr s =
      if pseudoCondition c s.regA.toNat s.regB.toNat then .ok ({ s with pc := addr }, true)
      else .ok (s, false) := by
    rw [hop]
    rfl
  rcases jumpIf_cases s (pseudoCondition c s.regA.toNat s.regB.toNat) addr 5 with ⟨htaken, e⟩ | ⟨htaken, e⟩
  · rw [htaken] at hexec
    rw [e]
    exact pseudoStep_of_end hfetch hexec (.inr rfl)
  · rw [htaken] at hexec
    rw [e, pseudoStep_of_advance hfetch hexec hrun rfl, hlen]

end Fetched

/-- The condition of opcode 13 is Jneq's (R146). -/
theorem pseudoCondition_neq (a b : Byte) : pseudoCondition 1 a.toNat b.toNat = conditionNeq a b :=
  (decide_not).symm

/-- The pseudocode after the fetch is the meaning of what was fetched, opcode by opcode (R94). -/
theorem exec_eq_pseudoStep {t : Opcode} {imm8 : Byte} {addr : Addr} (hrun : s.run = .running)
    (hfetch : pseudoFetch s s.pc.toNat = .ok (t.byte.toNat, imm8, addr)) :
    exec (t.withOperand imm8 addr) s = .next (pseudoStep s) := by
  cases t with
  | nop => rw [pseudoStep_of_advance hfetch rfl hrun rfl]; rfl
  | exit =>
    have hexited : ({ s with run := .exited imm8 } : State).run ≠ .running := by simp
    rw [pseudoStep_of_end (wrotePc := false) hfetch rfl (.inl hexited)]; rfl
  | add => rw [pseudoStep_of_advance hfetch rfl hrun rfl, ← aluAdd_eq]; rfl
  | subtract => rw [pseudoStep_of_advance hfetch rfl hrun rfl, ← aluSubtract_eq]; rfl
  | multiply => rw [pseudoStep_of_advance hfetch rfl hrun rfl, ← aluMultiply_eq]; rfl
  | loadA => rw [pseudoStep_load hfetch hrun (by decide)]; rfl
  | loadB => rw [pseudoStep_load hfetch hrun (by decide)]; rfl
  | loadC => rw [pseudoStep_load hfetch hrun (by decide)]; rfl
  | storeA => rw [pseudoStep_store hfetch hrun (by decide)]; rfl
  | storeB => rw [pseudoStep_store hfetch hrun (by decide)]; rfl
  | storeC => rw [pseudoStep_store hfetch hrun (by decide)]; rfl
  | jump => rw [pseudoStep_of_end (t := { s with pc := addr }) (wrotePc := true) hfetch rfl (.inr rfl)]; rfl
  | jeq => rw [pseudoStep_jumpIf (c := 0) hfetch hrun rfl]; rfl
  | jneq => rw [pseudoStep_jumpIf (c := 1) hfetch hrun rfl, pseudoCondition_neq]; rfl
  | jgt => rw [pseudoStep_jumpIf (c := 2) hfetch hrun rfl]; rfl
  | jlt => rw [pseudoStep_jumpIf (c := 3) hfetch hrun rfl]; rfl

/-- Settles O14: both fetches answer the same instruction or the same fault, and the pseudocode then does what the
instruction means. -/
theorem stepRefinesPseudocode : Obligations.StepRefinesPseudocode := by
  intro s hrun
  rcases pseudoFetch_cases s with ⟨t, imm8, addr, hfetch, hpseudo⟩ | ⟨f, hfetch, hpseudo⟩
  · rw [step_of_fetchInstr hrun hfetch, exec_eq_pseudoStep hrun hpseudo]
  · rw [step_of_fetchInstr_error hrun hfetch, pseudoStep, hpseudo]

end Sys2Proof.Machine
end

section
/-! SUPPORT. An advance below `2^32` as an addition on `pc`; then what Nop and Exit do. -/

namespace Sys2Proof.Machine

variable {s : State}

/-! ## The advance as an addition -/

/-- An advance below `2^32` adds the length to `pc` and changes nothing else (R95). -/
theorem advance_eq_add {len : Nat} (hnext : s.pc.toNat + len < 4294967296) :
    s.advance len = { s with pc := s.pc + BitVec.ofNat 32 len } := by
  have hpc : BitVec.ofNat 32 (s.pc.toNat + len) = s.pc + BitVec.ofNat 32 len := by
    rw [BitVec.ofNat_add, BitVec.ofNat_toNat, BitVec.setWidth_eq]
  rw [advance_of_lt s hnext, hpc]

/-! ## Nop and Exit -/

theorem exec_nop (s : State) : exec .nop s = .next (s.advance 1) := rfl

theorem exec_exit (s : State) (code : Byte) : exec (.exit code) s = .next { s with run := .exited code } := rfl

/-- Settles O16: Nop is the advance by one, which stays below `2^32`. -/
theorem nopCompletes : Obligations.NopCompletes := by
  intro s hnext
  rw [exec_nop]
  exact congrArg _ (advance_eq_add hnext)

/-- Settles O17: the bytes at `pc` are the encoding of Exit with its code, so the step is Exit's meaning. -/
theorem exitCompletes : Obligations.ExitCompletes := by
  intro s code
  refine ⟨exec_exit s code, fun hrun hheld => ?_⟩
  rw [stepRunsInstructionInMemory s (.exit code) hrun hheld, exec_exit]

end Sys2Proof.Machine
end

section
/-! SUPPORT. What the ALU's three instructions do: the result's equation, and then the advance below `2^32`. -/

namespace Sys2Proof.Machine

variable {s : State}

/-- An ALU instruction of one byte whose advance stays below `2^32` writes C, goes on one byte further and changes
nothing else (R114, R95). -/
theorem aluToC_next (hnext : s.pc.toNat + 1 < 4294967296) (op : Byte → Byte → Byte) :
    s.aluToC op 1 = { s with regC := op s.regA s.regB, pc := s.pc + 1 } :=
  advance_eq_add (s := { s with regC := op s.regA s.regB }) hnext

theorem exec_add (s : State) : exec .add s = .next (s.aluToC aluAdd 1) := rfl

theorem exec_subtract (s : State) : exec .subtract s = .next (s.aluToC aluSubtract 1) := rfl

theorem exec_multiply (s : State) : exec .multiply s = .next (s.aluToC aluMultiply 1) := rfl

/-- Settles O18: each of the three writes its operation's value to C, and that value is the exact result modulo 256. -/
theorem arithmeticCompletes : Obligations.ArithmeticCompletes := by
  intro s hnext
  refine ⟨?add, ?subtract, ?multiply⟩
  case add => rw [exec_add, aluToC_next hnext, aluAdd_eq]
  case subtract => rw [exec_subtract, aluToC_next hnext, aluSubtract_eq]
  case multiply => rw [exec_multiply, aluToC_next hnext, aluMultiply_eq]

end Sys2Proof.Machine
end

section
/-! SUPPORT. The two ends of a load: at a valid address with its advance below `2^32`, and at any other address. -/

namespace Sys2Proof.Machine

variable {s : State} {addr : Addr} {len : Nat}

/-- A load at a valid address whose advance stays below `2^32` writes its register, goes on behind itself and changes
nothing else (R123, R95). -/
theorem loadInto_eq_of_lt (haddr : addr.toNat < s.memLen) (hnext : s.pc.toNat + len < 4294967296) (r : Reg) :
    s.loadInto r addr len = { s.setReg r (s.mem.read addr.toNat) with pc := s.pc + BitVec.ofNat 32 len } := by
  rcases loadInto_cases s r addr len with ⟨-, e⟩ | ⟨hlen, -⟩
  · rw [e, advance_eq_add (by rwa [setReg_pc]), setReg_pc]
  · omega

/-- A load at an invalid address faults and leaves its register, `pc` and all else as they are (R123). -/
theorem loadInto_eq_of_ge (haddr : s.memLen ≤ addr.toNat) (r : Reg) :
    s.loadInto r addr len = { s with run := .faulted (.dataOutOfBounds addr) } := by
  rcases loadInto_cases s r addr len with ⟨hlt, -⟩ | ⟨-, e⟩
  · omega
  · exact e

/-- Settles O19: the three are one load, of A, of B and of C, and the address decides which of its two ends it has. -/
theorem loadsReadOneByte : Obligations.LoadsReadOneByte := by
  intro s addr
  refine ⟨fun haddr hnext => ?valid, fun haddr => ?invalid⟩
  case valid =>
    have hload (r : Reg) : exec (Instr.loadOf addr r) s =
        .next { s.setReg r (s.mem.read addr.toNat) with pc := s.pc + 5 } :=
      (exec_loadOf s addr r).trans (congrArg _ (loadInto_eq_of_lt haddr hnext r))
    exact ⟨hload .A, hload .B, hload .C⟩
  case invalid =>
    have hload (r : Reg) : exec (Instr.loadOf addr r) s = .next { s with run := .faulted (.dataOutOfBounds addr) } :=
      (exec_loadOf s addr r).trans (congrArg _ (loadInto_eq_of_ge haddr r))
    exact ⟨hload .A, hload .B, hload .C⟩

end Sys2Proof.Machine
end

section
/-! SUPPORT. The two ends of a store: at a valid address with its advance below `2^32`, and at any other address. -/

namespace Sys2Proof.Machine

variable {s : State} {addr : Addr} {len : Nat}

/-- A store at a valid address whose advance stays below `2^32` writes its cell, goes on behind itself and changes
nothing else (R133, R95). -/
theorem storeFrom_eq_of_lt (haddr : addr.toNat < s.memLen) (hnext : s.pc.toNat + len < 4294967296) (r : Reg) :
    s.storeFrom r addr len =
      { s with pc := s.pc + BitVec.ofNat 32 len, mem := s.mem.write (effectiveAddress addr) (s.getReg r) } := by
  rcases storeFrom_cases s r addr len with ⟨-, e⟩ | ⟨hlen, -⟩
  · exact e.trans (advance_eq_add hnext)
  · omega

/-- A store at an invalid address faults and leaves every cell, `pc` and all else as they are (R133). -/
theorem storeFrom_eq_of_ge (haddr : s.memLen ≤ addr.toNat) (r : Reg) :
    s.storeFrom r addr len = { s with run := .faulted (.dataOutOfBounds addr) } := by
  rcases storeFrom_cases s r addr len with ⟨hlt, -⟩ | ⟨-, e⟩
  · omega
  · exact e

/-- Settles O20: the address decides which of its two ends the store has; at a valid one the memory is the old one with
one cell written, so the rule of reads after a write says what every cell holds. -/
theorem storesWriteOneByte : Obligations.StoresWriteOneByte := by
  rintro s addr r ⟨hwf, -⟩
  refine ⟨fun haddr hnext => ?valid, fun haddr => ?invalid⟩
  case valid =>
    have hstore := (exec_storeOf s addr r).trans (congrArg _ (storeFrom_eq_of_lt haddr hnext r))
    exact ⟨_, hstore, rfl, read_write_same _ _ _ hwf, fun _ ha => read_write_other _ _ hwf ha⟩
  case invalid => rw [exec_storeOf, storeFrom_eq_of_ge haddr]

end Sys2Proof.Machine
end

section
/-! SUPPORT. The five jumps: the target where the condition holds, the advance where it does not; when `pc` tells the two
apart; and the step after a jump beyond memory. -/

namespace Sys2Proof.Machine

variable {s : State} {taken : Bool} {addr : Addr} {len : Nat}

/-! ## A conditional jump, taken and not taken -/

/-- A taken jump writes `pc` and changes nothing else, whatever its operand (R145, R96). -/
theorem jumpIf_of_taken (htaken : taken = true) : s.jumpIf taken addr len = { s with pc := addr } :=
  if_pos htaken

/-- A jump that is not taken is its advance, and its operand does not matter (R145). -/
theorem jumpIf_of_not_taken (htaken : ¬ taken = true) : s.jumpIf taken addr len = s.advance len :=
  if_neg htaken

/-- A jump that is not taken, whose advance stays below `2^32`, goes on behind its five bytes (R145, R95). -/
theorem jumpIf_next (htaken : ¬ taken = true) (hnext : s.pc.toNat + 5 < 4294967296) :
    s.jumpIf taken addr 5 = { s with pc := s.pc + 5 } :=
  (jumpIf_of_not_taken htaken).trans (advance_eq_add hnext)

/-- An advance leads nowhere but behind the instruction, or back to it where it would pass the top (R95). -/
theorem advance_pc_ne (hself : addr ≠ s.pc) (hbehind : addr.toNat ≠ s.pc.toNat + len) : (s.advance len).pc ≠ addr := by
  rcases advance_cases s len with ⟨hlt, e⟩ | ⟨-, e⟩ <;> rw [e]
  · rintro rfl
    exact hbehind (Nat.mod_eq_of_lt hlt)
  · exact hself.symm

/-- Where the target is neither the jump itself nor what follows it, `pc` tells whether the jump was taken. -/
theorem jumpIf_pc_eq_iff (hself : addr ≠ s.pc) (hbehind : addr.toNat ≠ s.pc.toNat + len) :
    (s.jumpIf taken addr len).pc = addr ↔ taken = true := by
  refine ⟨fun hpc => ?_, fun htaken => by rw [jumpIf_of_taken htaken]⟩
  by_contra htaken
  rw [jumpIf_of_not_taken htaken] at hpc
  exact advance_pc_ne hself hbehind hpc

/-! ## The five meanings -/

theorem exec_jump (s : State) (addr : Addr) : exec (.jump addr) s = .next { s with pc := addr } := rfl

theorem exec_jeq (s : State) (addr : Addr) :
    exec (.jeq addr) s = .next (s.jumpIf (conditionEq s.regA s.regB) addr 5) := rfl

theorem exec_jneq (s : State) (addr : Addr) :
    exec (.jneq addr) s = .next (s.jumpIf (conditionNeq s.regA s.regB) addr 5) := rfl

theorem exec_jgt (s : State) (addr : Addr) :
    exec (.jgt addr) s = .next (s.jumpIf (conditionGt s.regA s.regB) addr 5) := rfl

theorem exec_jlt (s : State) (addr : Addr) :
    exec (.jlt addr) s = .next (s.jumpIf (conditionLt s.regA s.regB) addr 5) := rfl

/-- Settles O21: Jump writes `pc`; each of the others is a conditional jump, whose condition the registers decide. -/
theorem jumpsComplete : Obligations.JumpsComplete := by
  intro s addr
  rw [exec_jump, exec_jeq, exec_jneq, exec_jgt, exec_jlt]
  refine ⟨rfl, fun h => ?jeqTaken, fun h => ?jneqTaken, fun h => ?jgtTaken, fun h => ?jltTaken, fun hnext =>
    ⟨fun h => ?jeqNot, fun h => ?jneqNot, fun h => ?jgtNot, fun h => ?jltNot⟩⟩
  case jeqTaken => rw [jumpIf_of_taken ((conditionEq_iff _ _).2 h)]
  case jneqTaken => rw [jumpIf_of_taken ((conditionNeq_iff _ _).2 h)]
  case jgtTaken => rw [jumpIf_of_taken ((conditionGt_iff _ _).2 h)]
  case jltTaken => rw [jumpIf_of_taken ((conditionLt_iff _ _).2 h)]
  case jeqNot => rw [jumpIf_next (mt (conditionEq_iff _ _).1 h) hnext]
  case jneqNot => rw [jumpIf_next (mt (conditionNeq_iff _ _).1 (not_not_intro h)) hnext]
  case jgtNot => rw [jumpIf_next (mt (conditionGt_iff _ _).1 (Nat.not_lt.2 h)) hnext]
  case jltNot => rw [jumpIf_next (mt (conditionLt_iff _ _).1 (Nat.not_lt.2 h)) hnext]

/-! ## Which of the jumps are taken together -/

/-- Settles O23: for each of the four, `pc` tells whether its condition holds; what remains is that the order of A and B
is total and that neither is both above and below the other. -/
theorem conditionsExcludeEachOther : Obligations.ConditionsExcludeEachOther := by
  intro s addr eq neq gt lt hself hbehind heq hneq hgt hlt
  rw [exec_jeq] at heq
  rw [exec_jneq] at hneq
  rw [exec_jgt] at hgt
  rw [exec_jlt] at hlt
  obtain rfl := Host.Outcome.next.inj heq
  obtain rfl := Host.Outcome.next.inj hneq
  obtain rfl := Host.Outcome.next.inj hgt
  obtain rfl := Host.Outcome.next.inj hlt
  simp only [jumpIf_pc_eq_iff hself hbehind, conditionEq_iff, conditionNeq_iff, conditionGt_iff, conditionLt_iff]
  refine ⟨not_not.symm, fun ⟨hgt, hlt⟩ => Nat.lt_asymm hgt hlt, ?_⟩
  rw [ne_eq, ← BitVec.toNat_inj, or_comm]
  exact Nat.ne_iff_lt_or_gt

/-! ## A jump beyond memory -/

/-- Settles O37: the first step is the jump, taken whatever its operand, and the second finds `pc` out of bounds. -/
theorem jumpBeyondMemoryFaultsOnNextStep : Obligations.JumpBeyondMemoryFaultsOnNextStep := by
  intro s addr i hrun hi hheld haddr
  have htaken : exec i s = .next { s with pc := addr } := by
    obtain ⟨hjump, hjeq, hjneq, hjgt, hjlt, -⟩ := jumpsComplete s addr
    rcases hi with rfl | ⟨rfl, h⟩ | ⟨rfl, h⟩ | ⟨rfl, h⟩ | ⟨rfl, h⟩
    · exact hjump
    · exact hjeq h
    · exact hjneq h
    · exact hjgt h
    · exact hjlt h
  have hfirst : step s = .next { s with pc := addr } := (stepRunsInstructionInMemory s i hrun hheld).trans htaken
  have hsecond := (opcodeFetchIsBoundsChecked { s with pc := addr } hrun).1 haddr
  exact ⟨runSteps_of_step hfirst 0, (runSteps_of_step hfirst 1).trans (runSteps_of_step hsecond 0)⟩

end Sys2Proof.Machine
end

section
/-! SUPPORT. Faults: the effect of an instruction does not depend on where it stands, so what its advance faults with is
the address behind it; the fault of an illegal opcode; the image that is refused; a fault and an exit told apart. -/

namespace Sys2Proof.Machine

variable {s t e : State} {i : Instr} {f : ExecutionFault}

/-! ## An effect and then the advance -/

/-- On `s`, wherever `pc` stands, the instruction has the effect that `e` shows and ends in its advance (R94, R95). -/
def State.advancesAfter (s : State) (i : Instr) (e : State) : Prop :=
  e.run = s.run ∧ ∀ p : Addr, exec i { s with pc := p } = .next (({ e with pc := p } : State).advance i.length)

theorem advancesAfter_nop (s : State) : s.advancesAfter .nop s := ⟨rfl, fun _ => rfl⟩

theorem advancesAfter_alu {op : Byte → Byte → Byte}
    (hi : i = .add ∧ op = aluAdd ∨ i = .subtract ∧ op = aluSubtract ∨ i = .multiply ∧ op = aluMultiply) :
    s.advancesAfter i { s with regC := op s.regA s.regB } := by
  rcases hi with ⟨rfl, rfl⟩ | ⟨rfl, rfl⟩ | ⟨rfl, rfl⟩ <;> exact ⟨rfl, fun _ => rfl⟩

theorem length_loadOf (addr : Addr) (r : Reg) : (Instr.loadOf addr r).length = 5 := by cases r <;> rfl

theorem length_storeOf (addr : Addr) (r : Reg) : (Instr.storeOf addr r).length = 5 := by cases r <;> rfl

theorem advancesAfter_loadOf {addr : Addr} (haddr : addr.toNat < s.memLen) (r : Reg) :
    s.advancesAfter (Instr.loadOf addr r) (s.setReg r (s.mem.read addr.toNat)) := by
  refine ⟨setReg_run s r _, fun p => ?_⟩
  rcases loadInto_cases { s with pc := p } r addr 5 with ⟨-, hload⟩ | ⟨hlen, -⟩
  · rw [exec_loadOf, hload, length_loadOf, setReg_withPc]
  · exact absurd haddr (Nat.not_lt.2 hlen)

theorem advancesAfter_storeOf {addr : Addr} (haddr : addr.toNat < s.memLen) (r : Reg) :
    s.advancesAfter (Instr.storeOf addr r) { s with mem := s.mem.write addr.toNat (s.getReg r) } := by
  refine ⟨rfl, fun p => ?_⟩
  rcases storeFrom_cases { s with pc := p } r addr 5 with ⟨-, hstore⟩ | ⟨hlen, -⟩
  · rw [exec_storeOf, hstore, length_storeOf, withPc_getReg]
  · exact absurd haddr (Nat.not_lt.2 hlen)

/-- A conditional jump that is not taken has no effect but its advance (R145). -/
theorem advancesAfter_jump_of_not_taken {addr : Addr} {condition : Byte → Byte → Bool}
    (hi : i = .jeq addr ∧ condition = conditionEq ∨ i = .jneq addr ∧ condition = conditionNeq ∨
      i = .jgt addr ∧ condition = conditionGt ∨ i = .jlt addr ∧ condition = conditionLt)
    (hnot : condition s.regA s.regB = false) : s.advancesAfter i s := by
  refine ⟨rfl, fun p => ?_⟩
  have hadvance : ({ s with pc := p } : State).jumpIf (condition s.regA s.regB) addr 5 =
      ({ s with pc := p } : State).advance 5 := jumpIf_of_not_taken (by simp [hnot])
  rcases hi with ⟨rfl, rfl⟩ | ⟨rfl, rfl⟩ | ⟨rfl, rfl⟩ | ⟨rfl, rfl⟩ <;> exact congrArg _ hadvance

/-! ## The two faults of an instruction that was fetched -/

/-- An instruction of a running core faults at its data address, before any effect, or in its advance, after
it (R97). -/
theorem exec_faulted_cases (hrun : s.run = .running) (h : exec i s = .next t) (hf : t.run = .faulted f) :
    (∃ addr r, (i = Instr.loadOf addr r ∨ i = Instr.storeOf addr r) ∧ s.memLen ≤ addr.toNat ∧
      t = { s with run := .faulted (.dataOutOfBounds addr) }) ∨
    ∃ e, s.advancesAfter i e := by
  rcases exec_cases s i with ⟨rfl, -⟩ | ⟨code, -, hexec⟩ | ⟨op, hi, -⟩ | ⟨r, addr, rfl, hexec⟩ |
    ⟨r, addr, rfl, hexec⟩ | ⟨addr, -, hexec⟩ | ⟨addr, condition, hi, hexec⟩
  · exact .inr ⟨s, advancesAfter_nop s⟩
  · obtain rfl := Host.Outcome.next.inj (hexec ▸ h)
    exact nomatch hf
  · exact .inr ⟨_, advancesAfter_alu hi⟩
  · rcases loadInto_cases s r addr 5 with ⟨haddr, -⟩ | ⟨haddr, hload⟩
    · exact .inr ⟨_, advancesAfter_loadOf haddr r⟩
    · obtain rfl := Host.Outcome.next.inj (hexec ▸ h)
      exact .inl ⟨addr, r, .inl rfl, haddr, hload⟩
  · rcases storeFrom_cases s r addr 5 with ⟨haddr, -⟩ | ⟨haddr, hstore⟩
    · exact .inr ⟨_, advancesAfter_storeOf haddr r⟩
    · obtain rfl := Host.Outcome.next.inj (hexec ▸ h)
      exact .inl ⟨addr, r, .inr rfl, haddr, hstore⟩
  · obtain rfl := Host.Outcome.next.inj (hexec ▸ h)
    exact absurd (hrun.symm.trans hf) (by simp)
  · rcases jumpIf_cases s (condition s.regA s.regB) addr 5 with ⟨-, htaken⟩ | ⟨hnot, -⟩
    · obtain rfl := Host.Outcome.next.inj ((htaken ▸ hexec) ▸ h)
      exact absurd (hrun.symm.trans hf) (by simp)
    · exact .inr ⟨s, advancesAfter_jump_of_not_taken hi hnot⟩

theorem length_instr_le (i : Instr) : i.length ≤ 5 := by
  rcases length_cases i.opcode with ⟨-, h⟩ | ⟨-, h⟩ | ⟨-, h⟩ <;> rw [Instr.length, h] <;> decide

/-- At address 0 the advance does not pass the top, so the effect is followed by `pc <- LEN` (R95). -/
theorem exec_at_zero (he : s.advancesAfter i e) :
    exec i { s with pc := 0 } = .next { e with pc := BitVec.ofNat 32 i.length } := by
  have hlt : (0 : Addr).toNat + i.length < Config.addressLimit :=
    Nat.lt_of_le_of_lt (Nat.add_le_add_left (length_instr_le i) _) (by decide)
  rw [he.2, advance_of_lt _ hlt]
  simp

/-- The fault of the advance names the address behind the instruction, past `2^32 - 1`, and keeps the effect (R95,
D11). -/
theorem exec_advance_faulted (hrun : s.run = .running) (he : s.advancesAfter i e) (h : exec i s = .next t)
    (hf : t.run = .faulted f) :
    4294967296 ≤ s.pc.toNat + i.length ∧ f = .fetchOutOfBounds (s.pc.toNat + i.length) ∧
      t = { e with pc := s.pc, run := .faulted (.fetchOutOfBounds (s.pc.toNat + i.length)) } := by
  obtain rfl := Host.Outcome.next.inj (h.symm.trans (he.2 s.pc))
  rcases advance_cases { e with pc := s.pc } i.length with ⟨-, hadv⟩ | ⟨htop, hadv⟩ <;> rw [hadv] at hf ⊢
  · exact absurd ((he.1.trans hrun).symm.trans hf) (by simp)
  · exact ⟨htop, (RunState.faulted.inj hf).symm, rfl⟩

/-- Settles O27: the fetch's fault is taken as it is; an instruction that was fetched faults at its data address, before
its effect, or in its advance, and its effect is the same at address 0. -/
theorem faultsArePrecise : Obligations.FaultsArePrecise := by
  intro s t f hrun hstep hf
  cases hfetch : s.fetchInstr with
  | error g =>
    obtain rfl := Host.Outcome.next.inj ((step_of_fetchInstr_error hrun hfetch).symm.trans hstep)
    obtain rfl := RunState.faulted.inj hf
    exact ⟨rfl, rfl, rfl⟩
  | ok i =>
    have hexec := (step_of_fetchInstr hrun hfetch).symm.trans hstep
    rcases exec_faulted_cases hrun hexec hf with ⟨addr, r, hi, haddr, rfl⟩ | ⟨e, he⟩
    · obtain rfl := RunState.faulted.inj hf
      exact ⟨rfl, rfl, haddr, r, hi⟩
    · obtain ⟨htop, rfl, rfl⟩ := exec_advance_faulted hrun he hexec hf
      have hpc : (BitVec.ofNat 32 i.length).toNat = i.length :=
        Nat.mod_eq_of_lt (Nat.lt_of_le_of_lt (length_instr_le i) (by decide))
      exact ⟨rfl, rfl, htop, _, exec_at_zero he, he.1.trans hrun, hpc, rfl⟩

/-! ## The illegal opcode -/

/-- The fault of an illegal opcode names `pc` and the byte (R92, R152). -/
theorem fetchInstr_of_illegal {b : Byte} (h : decode s.fetchWindow = .illegal b) :
    s.fetchInstr = .error (.illegalOpcode s.pc b) := by
  simp [State.fetchInstr, h]

/-- Settles O12: the window begins with the byte at `pc`, and from 0x10 on the decoder refuses it whatever follows. -/
theorem illegalOpcodeFaults : Obligations.IllegalOpcodeFaults := by
  intro s hrun hpc hbyte
  have hdecode : decode s.fetchWindow = .illegal (s.mem.read s.pc.toNat) := by
    rw [fetchWindow_of_lt s hpc, decode_illegal ((opcodeOf_eq_none_iff _).2 hbyte)]
  exact step_of_fetchInstr_error hrun (fetchInstr_of_illegal hdecode)

/-! ## The image that is refused, and the empty one -/

theorem imageWellFormed_iff (image : List Byte) : imageWellFormed image = true ↔ image.length ≤ 4294967296 :=
  decide_eq_true_iff

/-- Construction accepts exactly the images of at most `2^32` bytes (R166, D6). -/
theorem construct_cases (image : List Byte) :
    (image.length ≤ 4294967296 ∧ construct image = .next (State.afterReset image.length (Memory.ofBytes 0 image))) ∨
    (4294967296 < image.length ∧ construct image = .fault (.configError image.length)) := by
  by_cases h : imageWellFormed image = true
  · exact .inl ⟨(imageWellFormed_iff image).1 h, if_pos h⟩
  · exact .inr ⟨Nat.lt_of_not_le (mt (imageWellFormed_iff image).2 h), if_neg h⟩

/-- Settles O41: an image above the limit is not accepted; the empty one leaves `MEMLEN = 0`, so that the first opcode
fetch at 0 is out of bounds. -/
theorem oversizedImageIsConfigError : Obligations.OversizedImageIsConfigError := by
  refine ⟨fun image hlen => ?oversized, State.reset, State.reset.takeFault (.fetchOutOfBounds 0), rfl,
    ?firstStep, rfl⟩
  case oversized =>
    rcases construct_cases image with ⟨hle, -⟩ | ⟨-, e⟩
    · exact absurd hlen (Nat.not_lt.2 hle)
    · exact e
  case firstStep => exact (opcodeFetchIsBoundsChecked State.reset rfl).1 (Nat.le_refl 0)

/-! ## A fault is not an exit -/

/-- Settles O44: the two are different values of the run state, and their status ports are 1 and 2. -/
theorem faultIsNeverAnExit : Obligations.FaultIsNeverAnExit := by
  intro s t code f hs ht
  obtain ⟨hexited, -⟩ := ports_exited hs
  obtain ⟨hfaulted, -⟩ := ports_faulted ht
  rw [hs, ht, hexited, hfaulted]
  exact ⟨by simp, by decide⟩

end Sys2Proof.Machine
end

section
/-! SUPPORT. What every run keeps, the states that construction and reset leave, the word that `withFetchWord` places, the
run of a jump to itself, and what the host reads after a run. -/

namespace Sys2Proof.Machine

variable {s t : State}

/-! ## What every run keeps -/

/-- What every step keeps, every run keeps. -/
theorem runSteps_keeps {P : State → Prop} (hkeep : ∀ u v, P u → step u = .next v → P v) (n : Nat) (hs : P s)
    (h : runSteps n s = .next t) : P t := by
  induction n generalizing s with
  | zero =>
    obtain rfl := Host.Outcome.next.inj h
    exact hs
  | succ n ih =>
    obtain ⟨u, hstep⟩ := stepIsTotal s
    exact ih (hkeep s u hs hstep) ((runSteps_of_step hstep n).symm.trans h)

theorem inv_runSteps (n : Nat) (hs : s.Inv) (h : runSteps n s = .next t) : t.Inv :=
  runSteps_keeps stepKeepsInvariant n hs h

/-- No instruction changes `MEMLEN` (R20). -/
theorem memLen_exec {i : Instr} (h : exec i s = .next t) : t.memLen = s.memLen := by
  rcases exec_next_cases h with ⟨code, -, rfl⟩ | ⟨addr, r, -, -, rfl⟩ | ⟨addr, r, -, -, rfl⟩ |
    ⟨r, v, len, -, -, rfl⟩ | ⟨len, -, rfl⟩ | ⟨addr, -, rfl⟩
  · rfl
  · rfl
  · rw [advance_memLen]
  · rw [advance_memLen, setReg_memLen]
  · rw [advance_memLen]
  · rfl

theorem memLen_step (h : step s = .next t) : t.memLen = s.memLen := by
  rcases step_cases s with ⟨-, i, -, e⟩ | ⟨-, f, -, e⟩ | ⟨-, e⟩
  · exact memLen_exec (e.symm.trans h)
  · obtain rfl := Host.Outcome.next.inj (e.symm.trans h)
    rfl
  · obtain rfl := Host.Outcome.next.inj (e.symm.trans h)
    rfl

theorem memLen_runSteps (n : Nat) (h : runSteps n s = .next t) : t.memLen = s.memLen :=
  runSteps_keeps (P := fun u => u.memLen = s.memLen) (fun _ _ hu hstep => (memLen_step hstep).trans hu) n rfl h

/-! ## Construction and reset -/

/-- An accepted image, loaded, meets the invariant. -/
theorem inv_afterReset_ofBytes {image : List Byte} (h : image.length ≤ Config.addressLimit) :
    (State.afterReset image.length (Memory.ofBytes 0 image)).Inv := by
  refine ⟨wf_ofBytes 0 image, ?_, h, stopExplained_running rfl⟩
  simpa using below_ofBytes 0 image

/-- Construction from an accepted image leaves the reset state over its bytes (R166, R171). -/
theorem construct_of_le {image : List Byte} (h : image.length ≤ 4294967296) :
    construct image = .next (State.afterReset image.length (Memory.ofBytes 0 image)) := by
  rcases construct_cases image with ⟨-, e⟩ | ⟨hlt, -⟩
  · exact e
  · omega

/-- Settles O34: reset with nothing loaded is the reset state over the empty image. -/
theorem resetMeetsInvariant : Obligations.ResetMeetsInvariant :=
  ⟨inv_afterReset_ofBytes (image := []) (Nat.zero_le _),
    fun _ h => ⟨_, construct_of_le h, inv_afterReset_ofBytes h⟩⟩

/-- Settles O40: the reset state over the buffer's bytes, each read at its own place. -/
theorem constructionLoadsImage : Obligations.ConstructionLoadsImage := by
  intro image h
  refine ⟨_, construct_of_le h, rfl, rfl, rfl, rfl, rfl, rfl, fun a b hb => ?_⟩
  have hread := read_ofBytes 0 image a
  rwa [Nat.zero_add, hb] at hread

/-- Settles O42: the run keeps the invariant and `MEMLEN`, and reset keeps what the invariant says of memory. -/
theorem resetKeepsMemory : Obligations.ResetKeepsMemory := by
  intro n s t hs h
  have hlen : t.memLen = s.memLen := memLen_runSteps n h
  exact ⟨inv_of_running (inv_runSteps n hs h) rfl rfl rfl, rfl, hlen, rfl, rfl, rfl, rfl, rfl⟩

/-! ## The placed word -/

/-- A table word is an instruction when the decoder finds it at the beginning of the word's bytes. -/
theorem decode_of_decodeTableWord {nbits w : Nat} {i : Instr} (h : decodeTableWord nbits w = some i) :
    ∃ rest, decode (bytesOfTableWord nbits w) = .instr i rest := by
  unfold decodeTableWord at h
  split at h
  · next rest hdecode =>
    obtain rfl := Option.some.inj h
    exact ⟨rest, hdecode⟩
  · cases h
  · cases h

theorem length_bytesOfTableWord (nbits w : Nat) : (bytesOfTableWord nbits w).length = 5 := by
  simp [bytesOfTableWord, Config.longestInstruction]

/-- Below the limit, memory reaches to the end of the placed word. -/
theorem withFetchWord_memLen_ge (nbits w : Nat) (hpc : s.pc.toNat + 5 ≤ 4294967296) :
    s.pc.toNat + 5 ≤ (s.withFetchWord nbits w).memLen := by
  simp only [State.withFetchWord, Config.longestInstruction, Config.addressLimit]
  omega

/-- The window at `pc` is the placed word. -/
theorem fetchWindow_withFetchWord (nbits w : Nat) (hwf : s.mem.wf = true) (hpc : s.pc.toNat + 5 ≤ 4294967296) :
    (s.withFetchWord nbits w).fetchWindow = bytesOfTableWord nbits w := by
  have hlen := withFetchWord_memLen_ge nbits w hpc
  have hword := length_bytesOfTableWord nbits w
  apply List.ext_getElem?
  intro k
  rw [State.fetchWindow, getElem?_bytesFrom]
  by_cases hk : k < 5
  · have hbyte := List.getElem?_eq_getElem (hword.symm ▸ hk : k < (bytesOfTableWord nbits w).length)
    have hlimit : s.pc.toNat + k < Config.addressLimit := by
      rw [Config.addressLimit]
      omega
    have hbound : (s.withFetchWord nbits w).pc.toNat + k < (s.withFetchWord nbits w).memLen :=
      Nat.lt_of_lt_of_le (Nat.add_lt_add_left hk _) hlen
    rw [if_pos ⟨hk, hbound⟩, hbyte]
    exact congrArg some (read_writeBytes hwf hbyte hlimit)
  · rw [if_neg fun h => hk h.1, List.getElem?_eq_none (by omega)]

/-- Settles O10: the next fetch sees exactly the word that was placed. -/
theorem stepRunsPlacedWord : Obligations.StepRunsPlacedWord := by
  intro s nbits w i hwf hpc h
  obtain ⟨rest, hdecode⟩ := decode_of_decodeTableWord h
  rw [← fetchWindow_withFetchWord nbits w hwf hpc] at hdecode
  exact stepRunsDecodedInstruction _ i rest rfl hdecode

/-! ## The jump to itself -/

/-- A jump to its own address is a step to the same state. -/
theorem step_jumpToSelf (hrun : s.run = .running) (hheld : s.holdsAt s.pc.toNat (encode (.jump s.pc)) = true) :
    step s = .next s :=
  (stepRunsInstructionInMemory s _ hrun hheld).trans (exec_jump s s.pc)

/-- A state that steps to itself is never left. -/
theorem runSteps_of_step_self (h : step s = .next s) (n : Nat) : runSteps n s = .next s := by
  induction n with
  | zero => exact runSteps_zero s
  | succ n ih => rw [runSteps_of_step h, ih]

/-- Settles O38: the one state such a run reaches is its first, which is running. -/
theorem jumpToSelfRunsForever : Obligations.JumpToSelfRunsForever := by
  intro s hrun hheld
  have hruns := runSteps_of_step_self (step_jumpToSelf hrun hheld)
  refine ⟨hruns, fun n t h => ?_⟩
  obtain rfl := Host.Outcome.next.inj ((hruns n).symm.trans h)
  simp [State.isFaulted, hrun]

/-! ## The host's read -/

theorem hostReadCell_of_running (h : s.run = .running) (a : Nat) :
    hostReadCell s a = .error .hostAccessWhileRunning := by
  simp [hostReadCell, h]

theorem hostReadCell_exitWith_of_lt {a : Nat} (code : Byte) (ha : a < s.memLen) :
    hostReadCell (s.exitWith code) a = .ok (s.mem.read a) := by
  simp [hostReadCell, State.inBounds, ha]

theorem hostReadCell_exitWith_of_ge {a : Nat} (code : Byte) (ha : s.memLen ≤ a) :
    hostReadCell (s.exitWith code) a = .error (.hostReadOutOfBounds a) := by
  simp [hostReadCell, State.inBounds, Nat.not_lt.2 ha]

/-- Settles O43: the store writes its one cell and leaves the core running, the exit leaves memory alone, and the host
reads the memory of the stopped core. -/
theorem hostReadsStoredByteAfterExit : Obligations.HostReadsStoredByteAfterExit := by
  rintro s addr r code ⟨hwf, -⟩ hrun haddr hnext
  have hlen : (s.storeFrom r addr 5).memLen = s.memLen := memLen_storeFrom r addr 5
  have hmem := mem_storeFrom_of_lt (r := r) 5 haddr
  obtain ⟨hkept, -⟩ := storeFrom_next (r := r) haddr hnext
  refine ⟨s.storeFrom r addr 5, (s.storeFrom r addr 5).exitWith code, exec_storeOf s addr r, exec_exit _ code,
    ?stored, fun a ha hne => ?others, hostReadCell_of_running (hkept.trans hrun),
    fun a ha => hostReadCell_exitWith_of_ge code (by rwa [hlen])⟩
  case stored => rw [hostReadCell_exitWith_of_lt code (by rwa [hlen]), hmem, read_write_same _ _ _ hwf]
  case others => rw [hostReadCell_exitWith_of_lt code (by rwa [hlen]), hmem, read_write_other _ _ hwf hne]

end Sys2Proof.Machine
end
